-- ==== Sys2Proof/Word.lean ====
section
/-! DEFINITION. The word types of the block: codewords, bytes, command words, samples (R8, R70 to R72, R83), the three
encoding formats, and a word tagged with its format. -/

namespace Sys2Proof

/-- R70: a codeword, 4 bits `s m2 m1 m0`. -/
abbrev Codeword := BitVec 4

/-- R71: a byte of IN, two codewords. -/
abbrev Byte := BitVec 8

/-- R72: a command word, `{cmd[1:0], data[7:0]}`. -/
abbrev CommandWord := BitVec 10

/-- R83: a sample as the output port carries it, 16 bits two's complement. -/
abbrev Sample := BitVec 16

/-- The three formats: `CW` (R70), `BY` (R71), `CMD` (R72). -/
inductive Format where
  | cw
  | packed
  | cmd
  deriving DecidableEq, Repr

/-- Length of a format in bits (R70, R71, R72). -/
def Format.width : Format → Nat
  | .cw => 4
  | .packed => 8
  | .cmd => 10

/-- Bits as a tool hands them over: a format and a number, not yet known to fit the format. -/
structure RawWord where
  format : Format
  bits : Nat
  deriving DecidableEq, Repr

/-- One encoded unit, in its format. -/
inductive Encoded where
  | cw (c : Codeword)
  | packed (b : Byte)
  | cmd (w : CommandWord)
  deriving DecidableEq, Repr

/-- The format of an encoded unit. -/
def Encoded.format : Encoded → Format
  | .cw _ => .cw
  | .packed _ => .packed
  | .cmd _ => .cmd

/-- The bits of an encoded unit as one number, bit 0 least significant (R10). -/
def Encoded.bits : Encoded → Nat
  | .cw c => c.toNat
  | .packed b => b.toNat
  | .cmd w => w.toNat

end Sys2Proof
end

