-- ==== Sys2Proof/Syntax.lean ====
section
/-! DEFINITION. The instructions: one constructor per row of spec/opcode_table.json. -/

namespace Sys2Proof

/-- The 21 rows of the opcode table. The ignored bits of `NOP`, `INIT` and `DEC` (R75, R76) are no operands. -/
inductive Instr where
  /-- `NOP` (R130), format CMD. -/
  | nop
  /-- `INIT` (R131), format CMD. -/
  | init
  /-- `DEC code` (R90), format CMD. -/
  | dec (code : Codeword)
  /-- `DECB b` (R132), format CMD. -/
  | decb (b : Byte)
  /-- `DECB.BY`, the bare byte (R78, R132), format BY. -/
  | decbBy (b : Byte)
  /-- `DEC.P0` (R100), format CW; so to `DEC.P7` (R107). -/
  | decP0
  | decP1
  | decP2
  | decP3
  | decP4
  | decP5
  | decP6
  | decP7
  /-- `DEC.M0` (R108), format CW; so to `DEC.M7` (R115). -/
  | decM0
  | decM1
  | decM2
  | decM3
  | decM4
  | decM5
  | decM6
  | decM7
  deriving DecidableEq, Repr

end Sys2Proof
end

