-- ==== Sys2Proof/Config.lean ====
section
/-! DEFINITION. What one build of the block fixes (R9, R31): the two ROMs, the byte stride, the depth of the sample
buffer. The values taken stand in Machine/Tables.lean. Log 2 says why State carries this record; log 3 is the buffer depth. -/

namespace Sys2Proof

/-- R9, R136: `BYTE_STRIDE`. `perByte` is 1, the canonical stride; `skipping` is 2, the documented defect (R137, C1). -/
inductive Stride where
  | perByte
  | skipping
  deriving DecidableEq, Repr

/-- The stride as the number of bytes the cursor advances by (R136). -/
def Stride.bytes : Stride → Nat
  | .perByte => 1
  | .skipping => 2

/-- The parameters of the step relation (R9, R31); no operation writes them (R61).
DESIGN CHOICE (log 3): `bufferDepth` is the size of R212's "internal buffering", which the spec does not give. -/
structure Config where
  /-- `StepTable`, the STEP space (R43, R45): 89 entries. -/
  stepTable : Vector Nat 89
  /-- `IndexTable`, the IDX space (R44, R45): 16 entries. -/
  indexTable : Vector Int 16
  /-- `BYTE_STRIDE` (R136). -/
  byteStride : Stride
  /-- How many samples the block can hold before the host takes them (R212). -/
  bufferDepth : Nat
  deriving DecidableEq, Repr

end Sys2Proof
end

