-- ==== Sys2Proof/WellFormed.lean ====
section
/-! DEFINITION. Well-formedness. Every codeword, byte and command word is legal (R79) and the operand types carry their
widths, so an `Instr` needs no check of its own. What can be ill formed is a word that does not fit its format, and a
configuration that breaks what the spec fixes about the tables (R45) or that could never accept a command (R212). -/

namespace Sys2Proof

/-- A raw word fits its format (R70, R71, R72). -/
def RawWord.wf (r : RawWord) : Bool :=
  decide (r.bits < 2 ^ r.format.width)

/-- R45 (a): every step size is positive. -/
def Config.stepsPositive (cfg : Config) : Bool :=
  cfg.stepTable.toList.all fun step => decide (0 < step)

/-- R45 (c): `StepTable[0] >> 3 = 0`. -/
def Config.firstStepSmall (cfg : Config) : Bool :=
  decide (cfg.stepTable[0] >>> 3 = 0)

/-- R45 (d): `IndexTable[0] = -1`. -/
def Config.firstDeltaMinusOne (cfg : Config) : Bool :=
  decide (cfg.indexTable[0] = -1)

/-- R212: the buffer can hold the two samples of one `DECB`, so that a command can be accepted at all. -/
def Config.bufferHoldsOneCommand (cfg : Config) : Bool :=
  decide (2 ≤ cfg.bufferDepth)

/-- All that the spec fixes about a configuration (R45, R212). The table lengths and the two strides are in the types. -/
def Config.wf (cfg : Config) : Bool :=
  cfg.stepsPositive && cfg.firstStepSmall && cfg.firstDeltaMinusOne && cfg.bufferHoldsOneCommand

end Sys2Proof
end

