-- ==== Sys2Proof/Decode.lean ====
section
/-! DEFINITION. The decoder of the three formats, total on every word (R79), and the encoder, both from the opcode map
(R70 to R78); the rows of spec/opcode_table.json; the reading of a word as the table numbers its bits. -/

namespace Sys2Proof

/-- R74: `hi = (b >> 4) & 0xF`, the codeword decoded first (R50). -/
def highNibble (b : Byte) : Codeword :=
  b.extractLsb' 4 4

/-- R74: `lo = b & 0xF`, the codeword decoded second (R50). -/
def lowNibble (b : Byte) : Codeword :=
  b.extractLsb' 0 4

/-- R72: the `data` field, bits 7:0. -/
def dataField (w : CommandWord) : Byte :=
  w.extractLsb' 0 8

/-- R72: the command word `{cmd, data}`. -/
def commandWord (cmd : BitVec 2) (data : Byte) : CommandWord :=
  cmd ++ data

/-- R77: all 16 codewords are instructions, by their bits `s m2 m1 m0` (R70). -/
def decodeCodeword (c : Codeword) : Instr :=
  match c.getLsbD 3, c.getLsbD 2, c.getLsbD 1, c.getLsbD 0 with
  | false, false, false, false => .decP0
  | false, false, false, true => .decP1
  | false, false, true, false => .decP2
  | false, false, true, true => .decP3
  | false, true, false, false => .decP4
  | false, true, false, true => .decP5
  | false, true, true, false => .decP6
  | false, true, true, true => .decP7
  | true, false, false, false => .decM0
  | true, false, false, true => .decM1
  | true, false, true, false => .decM2
  | true, false, true, true => .decM3
  | true, true, false, false => .decM4
  | true, true, false, true => .decM5
  | true, true, true, false => .decM6
  | true, true, true, true => .decM7

/-- R78: every byte is `DECB.BY`. -/
def decodePacked (b : Byte) : Instr :=
  .decbBy b

/-- R75, R76: all four values of `cmd` (bits 9:8) are assigned; `DEC` ignores `data[7:4]`, `NOP` and `INIT` ignore `data`. -/
def decodeCommand (w : CommandWord) : Instr :=
  match w.getLsbD 9, w.getLsbD 8 with
  | false, false => .nop
  | false, true => .init
  | true, false => .dec (lowNibble (dataField w))
  | true, true => .decb (dataField w)

/-- The decoder: total, it never answers "invalid" (R79). -/
def decode : Encoded → Instr
  | .cw c => decodeCodeword c
  | .packed b => decodePacked b
  | .cmd w => decodeCommand w

/-- The encoder (R70 to R78). DESIGN CHOICE (log 16): ignored bits are written as 0. -/
def encode : Instr → Encoded
  | .nop => .cmd (commandWord 0b00#2 0)
  | .init => .cmd (commandWord 0b01#2 0)
  | .dec code => .cmd (commandWord 0b10#2 (0#4 ++ code))
  | .decb b => .cmd (commandWord 0b11#2 b)
  | .decbBy b => .packed b
  | .decP0 => .cw 0b0000#4
  | .decP1 => .cw 0b0001#4
  | .decP2 => .cw 0b0010#4
  | .decP3 => .cw 0b0011#4
  | .decP4 => .cw 0b0100#4
  | .decP5 => .cw 0b0101#4
  | .decP6 => .cw 0b0110#4
  | .decP7 => .cw 0b0111#4
  | .decM0 => .cw 0b1000#4
  | .decM1 => .cw 0b1001#4
  | .decM2 => .cw 0b1010#4
  | .decM3 => .cw 0b1011#4
  | .decM4 => .cw 0b1100#4
  | .decM5 => .cw 0b1101#4
  | .decM6 => .cw 0b1110#4
  | .decM7 => .cw 0b1111#4

/-- One row of spec/opcode_table.json: its format, `match` and `mask`. -/
structure OpcodeRow where
  format : Format
  value : Nat
  mask : Nat
  deriving DecidableEq, Repr

/-- The row an instruction stands in, transcribed from spec/opcode_table.json. -/
def opcodeRow : Instr → OpcodeRow
  | .nop => ⟨.cmd, 0x000, 0x300⟩
  | .init => ⟨.cmd, 0x100, 0x300⟩
  | .dec _ => ⟨.cmd, 0x200, 0x300⟩
  | .decb _ => ⟨.cmd, 0x300, 0x300⟩
  | .decbBy _ => ⟨.packed, 0x00, 0x00⟩
  | .decP0 => ⟨.cw, 0x0, 0xF⟩
  | .decP1 => ⟨.cw, 0x1, 0xF⟩
  | .decP2 => ⟨.cw, 0x2, 0xF⟩
  | .decP3 => ⟨.cw, 0x3, 0xF⟩
  | .decP4 => ⟨.cw, 0x4, 0xF⟩
  | .decP5 => ⟨.cw, 0x5, 0xF⟩
  | .decP6 => ⟨.cw, 0x6, 0xF⟩
  | .decP7 => ⟨.cw, 0x7, 0xF⟩
  | .decM0 => ⟨.cw, 0x8, 0xF⟩
  | .decM1 => ⟨.cw, 0x9, 0xF⟩
  | .decM2 => ⟨.cw, 0xA, 0xF⟩
  | .decM3 => ⟨.cw, 0xB, 0xF⟩
  | .decM4 => ⟨.cw, 0xC, 0xF⟩
  | .decM5 => ⟨.cw, 0xD, 0xF⟩
  | .decM6 => ⟨.cw, 0xE, 0xF⟩
  | .decM7 => ⟨.cw, 0xF, 0xF⟩

/-- A word belongs to a row: same format, and the fixed bits as the row has them. -/
def OpcodeRow.accepts (row : OpcodeRow) (e : Encoded) : Bool :=
  decide (e.format = row.format) && decide (e.bits &&& row.mask = row.value)

/-- Why raw bits are no word: they do not fit the format. No encoding that fits is rejected (R79). -/
inductive DecodeError where
  | tooWide (format : Format)
  deriving DecidableEq, Repr

/-- Raw bits as an encoded unit, rejected by name when they do not fit. -/
def RawWord.encoded (r : RawWord) : Except DecodeError Encoded :=
  if r.wf then
    match r.format with
    | .cw => .ok (.cw (BitVec.ofNat 4 r.bits))
    | .packed => .ok (.packed (BitVec.ofNat 8 r.bits))
    | .cmd => .ok (.cmd (BitVec.ofNat 10 r.bits))
  else .error (.tooWide r.format)

/-- Raw bits decoded, or rejected by name. -/
def decodeRaw (r : RawWord) : Except DecodeError Instr :=
  match r.encoded with
  | .ok e => .ok (decode e)
  | .error err => .error err

/-- Which format the opcode table's word of `nbits` bits is in. DESIGN CHOICE (log 14): a word of up to one byte is a codeword
when it is below 16 and a packed byte otherwise; a row with no bits given is the packed byte; a longer word is a command. -/
def tableRaw (nbits w : Nat) : RawWord :=
  if nbits = 0 then ⟨.packed, w⟩
  else if nbits ≤ 8 then
    if w < 16 then ⟨.cw, w⟩ else ⟨.packed, w⟩
  else ⟨.cmd, w⟩

/-- The opcode table's word as an encoded unit. -/
def tableWord (nbits w : Nat) : Option Encoded :=
  (tableRaw nbits w).encoded.toOption

/-- What the decoder reads from a word of the opcode table. -/
def decodeTableWord (nbits w : Nat) : Option Instr :=
  (decodeRaw (tableRaw nbits w)).toOption

end Sys2Proof
end

