-- ==== Sys2Proof/Machine/Tables.lean ====
section
/-! DEFINITION. The values this spec gives the parameters (R9): the default `StepTable` (R46), the default `IndexTable` (R47),
`BYTE_STRIDE = 1` (D2), and a buffer depth of this model's choice (log 3). PRESUMED (log 1): the spec itself supplies the two
tables from general knowledge, so only R45's facts about them come from its source. -/

namespace Sys2Proof.Machine

/-- R46, index 0 first, ten per row. -/
def standardSteps : List Nat :=
  [7, 8, 9, 10, 11, 12, 13, 14, 16, 17] ++
  [19, 21, 23, 25, 28, 31, 34, 37, 41, 45] ++
  [50, 55, 60, 66, 73, 80, 88, 97, 107, 118] ++
  [130, 143, 157, 173, 190, 209, 230, 253, 279, 307] ++
  [337, 371, 408, 449, 494, 544, 598, 658, 724, 796] ++
  [876, 963, 1060, 1166, 1282, 1411, 1552, 1707, 1878, 2066] ++
  [2272, 2499, 2749, 3024, 3327, 3660, 4026, 4428, 4871, 5358] ++
  [5894, 6484, 7132, 7845, 8630, 9493, 10442, 11487, 12635, 13899] ++
  [15289, 16818, 18500, 20350, 22385, 24623, 27086, 29794, 32767]

/-- R47, indexed by the whole codeword. -/
def standardDeltas : List Int :=
  [-1, -1, -1, -1, 2, 4, 6, 8] ++ [-1, -1, -1, -1, 2, 4, 6, 8]

/-- The default `StepTable` (R46). -/
def standardStepTable : Vector Nat 89 :=
  ⟨standardSteps.toArray, rfl⟩

/-- The default `IndexTable` (R47). -/
def standardIndexTable : Vector Int 16 :=
  ⟨standardDeltas.toArray, rfl⟩

/-- DESIGN CHOICE (log 3): the block buffers the two samples of one `DECB`; the spec gives no size. -/
def standardBufferDepth : Nat := 2

/-- The configuration the block is built with (R9). -/
def standardConfig : Config where
  stepTable := standardStepTable
  indexTable := standardIndexTable
  byteStride := .perByte
  bufferDepth := standardBufferDepth

end Sys2Proof.Machine
end

