-- ==== Sys2Proof/Machine/State.lean ====
section
/-! DEFINITION. The state of the block, its sequencer and its environment, as plain data; the reasons a step can stop; the
state after reset and the state before it. INVENTORY.md lists every field with its rule. -/

namespace Sys2Proof.Machine

/-- Why the machine stops with a fault: never. The table of exception causes is empty (R180), so this type has no
constructor, and no step can answer a fault. DEDUCED (log 19); safe, since nothing is lost that the spec describes. -/
inductive Fault where
  deriving DecidableEq, Repr

/-- Why a step has no meaning. -/
inductive Refusal where
  /-- Raised by `exec` for an instruction that has no meaning yet; no arm does. Safe. -/
  | notModelled (mnemonic : String)
  /-- Raised by every decoding instruction before any hardware reset and any `INIT`, when the registers hold no value
  (R182, R203, D5). Safe: it errs toward unprovable, as the spec says. -/
  | uninitialised
  deriving DecidableEq, Repr

/-- What one step answers. -/
abbrev Outcome := Host.Outcome

/-- The decoder's two registers (R20, R21). DEDUCED (log 18): the predictor is its 16-bit pattern and the step index has no
values 89 to 127 (D8). -/
structure DecoderState where
  /-- R20: 16 bits, two's complement, read as a signed integer with `toInt`. -/
  predictor : BitVec 16
  /-- R21: 0 to 88. -/
  stepIndex : Fin 89
  deriving DecidableEq, Repr

/-- R131: the initial state `{predictor:0, stepIndex:0}` of every stream. -/
def DecoderState.initial : DecoderState where
  predictor := 0
  stepIndex := 0

/-- R24: which nibble of the byte at the cursor is next. -/
inductive Phase where
  | hi
  /-- The byte at the cursor has been read, once (R41), and its low nibble is next: the byte stays with the sequencer between its two
  commands. DEDUCED from R41 (log 23). -/
  | lo (held : Byte)
  deriving DecidableEq, Repr

/-- R24: the unit a sequencer issues: whole bytes (`DECB`) or single codewords (two `DEC` a byte). -/
inductive StreamUnit where
  | bytes
  | nibbles
  deriving DecidableEq, Repr

/-- The stream sequencer (R24, R136), an optional agent: `walking` says whether it drives the block, and in which unit (log 8).
Nothing sets `walking` back to `none`: a sequencer whose run is over keeps its stream (DESIGN CHOICE, log 24). -/
structure Sequencer where
  walking : Option StreamUnit
  /-- The IN space (R41): a finite sequence of bytes, written by no operation of the block. -/
  input : List Byte
  /-- R24: the index in IN of the byte being decoded. -/
  cursor : Nat
  phase : Phase
  deriving DecidableEq, Repr

/-- What the host asks for in one slot. -/
inductive Request where
  /-- Nothing: `cmd_valid` is 0. -/
  | idle
  /-- A command word on the command port (R84). -/
  | command (w : CommandWord)
  /-- A byte stream for the sequencer: R136 `start` (log 9). -/
  | stream (unit : StreamUnit) (bytes : List Byte)
  deriving DecidableEq, Repr

/-- One slot of the host's behaviour (log 5): whether `rst` is asserted (R200), how many samples the host takes at the
sample port (R84), and what it requests. A slot is no clock cycle: the model has no time (R213, log 17). -/
structure Slot where
  rst : Bool
  take : Nat
  request : Request
  deriving DecidableEq, Repr

/-- Everything the spec gives the machine, and the host's behaviour still to come. -/
structure State where
  /-- The ROMs and the other build-time parameters (R31); never written (R61, log 2). -/
  cfg : Config
  /-- `predictor` and `stepIndex` (R20, R21). -/
  regs : DecoderState
  /-- A hardware reset or an `INIT` has happened, so `regs` holds values (R32, R203). -/
  initialised : Bool
  /-- The OUT space (R42): every sample emitted since the last hardware reset, oldest first. -/
  out : List Sample
  /-- How long OUT was at the last `INIT`: the current stream's samples start there (R32, D15, log 10). -/
  streamStart : Nat
  /-- How many samples of OUT the host has taken; the block holds the others (R212). -/
  handed : Nat
  /-- The stream sequencer (R24). -/
  seq : Sequencer
  /-- What the host will do, next slot first (log 5). -/
  slots : List Slot
  deriving DecidableEq, Repr

/-- The machine right after hardware reset (R32, R200), with the default configuration (R9), an empty IN space and no
sequencer driving (DESIGN CHOICE, log 8) and nothing scripted for the host (DESIGN CHOICE, log 5). -/
def State.reset : State where
  cfg := standardConfig
  regs := .initial
  initialised := true
  out := []
  streamStart := 0
  handed := 0
  seq := { walking := none, input := [], cursor := 0, phase := .hi }
  slots := []

/-- The machine before its first reset and first `INIT` (R32, R203): the registers hold no value, and every decode is
refused. DESIGN CHOICE (log 11): the fields that hold no value are written here as after reset; nothing reads them. -/
def State.powerOn : State :=
  { State.reset with initialised := false }

end Sys2Proof.Machine
end

