-- ==== Sys2Proof/Machine/Flags.lean ====
section
/-! DEFINITION. There are no flags: neither clamp records that it saturated (R25). What stands in their place is the two
saturating clamps of R90, the only range-limiting operations of the block (R11, R99). -/

namespace Sys2Proof.Machine

/-- R12: `clamp(v, lo, hi)`. -/
def clamp (v lo hi : Int) : Int :=
  if v < lo then lo else if hi < v then hi else v

/-- R90 step 4, R96: the predictor clamp, to a 16-bit pattern (R83). -/
def clampPredictor (raw : Int) : BitVec 16 :=
  BitVec.ofInt 16 (clamp raw (-32768) 32767)

/-- A clamped step index is a step index. -/
theorem clamp_index_lt (v : Int) : (clamp v 0 88).toNat < 89 := by
  unfold clamp; split_ifs <;> omega

/-- R90 step 5, R98: the index clamp. -/
def clampIndex (raw : Int) : Fin 89 :=
  ⟨(clamp raw 0 88).toNat, clamp_index_lt raw⟩

end Sys2Proof.Machine
end

