-- ==== Sys2Proof/Machine/Operands.lean ====
section
/-! DEFINITION. The operands of a decode step: the fields of a codeword (R70, R73), the direction they select (R95) and the
difference they build (R94). All shifts are floors of a non-negative integer (R12). -/

namespace Sys2Proof.Machine

/-- R95: whether the difference is added to the predictor or subtracted from it. -/
inductive Direction where
  | add
  | subtract
  deriving DecidableEq, Repr

/-- R70, R95: bit 3, the sign bit: 1 subtracts, 0 adds. -/
def direction (code : Codeword) : Direction :=
  if code.getLsbD 3 then .subtract else .add

/-- R90 step 2, R94: four separately truncated terms of `step`. -/
def difference (step : Nat) (code : Codeword) : Nat :=
  (step >>> 3)
    + (if code.getLsbD 2 then step else 0)
    + (if code.getLsbD 1 then step >>> 1 else 0)
    + (if code.getLsbD 0 then step >>> 2 else 0)

/-- R90 step 3: the unclamped predictor `raw`, an exact integer (R96, C2). -/
def rawPredictor (predictor : Int) (dir : Direction) (diff : Nat) : Int :=
  match dir with
  | .add => predictor + diff
  | .subtract => predictor - diff

/-- R43: a read of the STEP ROM; the index is always in range. -/
def readStep (cfg : Config) (i : Fin 89) : Nat :=
  cfg.stepTable[i]

/-- R44: a read of the IDX ROM, indexed by the whole 4-bit codeword. -/
def readDelta (cfg : Config) (code : Codeword) : Int :=
  cfg.indexTable[code.toFin]

/-- R90 step 5: the unclamped step index, from the OLD index and the whole codeword (R92, R98). -/
def rawIndex (cfg : Config) (i : Fin 89) (code : Codeword) : Int :=
  (i.val : Int) + readDelta cfg code

end Sys2Proof.Machine
end

