-- ==== Sys2Proof/Machine/Ops.lean ====
section
/-! DEFINITION. The shared operations over the registers and the spaces: writing both registers, `Emit`, starting a stream,
hardware reset, the sample port, and the one decode step every decoding instruction is made of. The block takes no
exception and returns from none (R180, R185), so there is no such operation. -/

namespace Sys2Proof.Machine

/-- R93: both registers are written together. -/
def State.setRegs (s : State) (r : DecoderState) : State :=
  { s with regs := r }

/-- R24: the sequencer moved to where it then stands. -/
def State.setSeq (s : State) (q : Sequencer) : State :=
  { s with seq := q }

/-- R42, R12 `Emit(v)`: append one sample to OUT. -/
def State.emit (s : State) (v : Sample) : State :=
  { s with out := s.out ++ [v] }

/-- The effect of `INIT` (R131): registers to the initial state, which makes them defined (R32); the sequencer's cursor to 0
and phase to `hi`; no sample emitted, OUT unchanged, and a new stream's samples begin here (D15, log 10). -/
def State.startStream (s : State) : State :=
  { s with
    regs := .initial
    initialised := true
    streamStart := s.out.length
    seq := { s.seq with cursor := 0, phase := .hi } }

/-- R200: hardware reset. Samples not yet handed over are dropped and OUT starts empty. DESIGN CHOICE (log 12): what the spec
does not list stays: the configuration, the IN space, whether a sequencer is present, and the host's script. -/
def State.hardwareReset (s : State) : State :=
  { s with
    regs := .initial
    initialised := true
    out := []
    streamStart := 0
    handed := 0
    seq := { s.seq with cursor := 0, phase := .hi } }

/-- R212: the samples emitted and not yet handed over, which the block holds in order. -/
def State.pending (s : State) : List Sample :=
  s.out.drop s.handed

/-- R84 `out_valid`: a sample is offered. -/
def State.outValid (s : State) : Bool :=
  decide (s.handed < s.out.length)

/-- R84 `sample[15:0]`: the oldest sample not yet handed over. -/
def State.samplePort (s : State) : Option Sample :=
  s.out[s.handed]?

/-- R212: the host takes up to `n` of the offered samples, in order. -/
def State.handOver (s : State) (n : Nat) : State :=
  { s with handed := s.handed + min n (s.out.length - s.handed) }

/-- R84 `cmd_ready`, R212: a command is accepted only while no sample can be lost. DESIGN CHOICE (log 4): while there is room
for two more samples, the most any command emits (R55), whatever command is offered. -/
def State.cmdReady (s : State) : Bool :=
  decide (s.out.length - s.handed + 2 ≤ s.cfg.bufferDepth)

/-- D15, R140: the samples of the current stream, those emitted since its `INIT`. -/
def State.streamOut (s : State) : List Sample :=
  s.out.drop s.streamStart

/-- R12 `MemRead(IN, k, 1)`: the byte at index `k` of IN, none past its end (R41). -/
def State.readIn (s : State) (k : Nat) : Option Byte :=
  s.seq.input[k]?

/-- R90 step 1: the step size, read with the OLD step index (R92). -/
def State.stepSize (s : State) : Nat :=
  readStep s.cfg s.regs.stepIndex

/-- R90 steps 3 to 5: the two registers after one codeword, for a given direction and difference. -/
def nextRegs (cfg : Config) (dir : Direction) (diff : Nat) (code : Codeword) (r : DecoderState) : DecoderState where
  predictor := clampPredictor (rawPredictor r.predictor.toInt dir diff)
  stepIndex := clampIndex (rawIndex cfg r.stepIndex code)

/-- R90 in the source's functional form `decodeSample(code, state) -> (sample, newState)` (R23, R91). -/
def decodeSample (cfg : Config) (code : Codeword) (r : DecoderState) : Sample × DecoderState :=
  let r' := nextRegs cfg (direction code) (difference (readStep cfg r.stepIndex) code) code r
  (r'.predictor, r')

/-- R90 steps 3 to 6 on the machine: both registers together, then the new predictor as the sample (R93, R97). Before any
reset and any `INIT` it is refused (R182, R203). -/
def applyDifference (dir : Direction) (diff : Nat) (code : Codeword) (s : State) : Outcome State Fault Refusal :=
  if s.initialised then
    .next ((s.setRegs (nextRegs s.cfg dir diff code s.regs)).emit (nextRegs s.cfg dir diff code s.regs).predictor)
  else .refused .uninitialised

/-- R90: the decode step for any codeword. -/
def decodeStep (code : Codeword) (s : State) : Outcome State Fault Refusal :=
  applyDifference (direction code) (difference s.stepSize code) code s

/-- One operation after another: the second runs from the state the first left. -/
def andThen (o : Outcome State Fault Refusal) (f : State → Outcome State Fault Refusal) : Outcome State Fault Refusal :=
  match o with
  | .next s => f s
  | .fault r => .fault r
  | .refused r => .refused r

/-- R132: the high nibble's full step, then the low nibble's from the state the first left (R134). -/
def decodeByte (b : Byte) (s : State) : Outcome State Fault Refusal :=
  andThen (decodeStep (highNibble b) s) (decodeStep (lowNibble b))

/-- The state of an outcome, if it has one. -/
def nextState? (o : Outcome State Fault Refusal) : Option State :=
  match o with
  | .next s => some s
  | .fault _ => none
  | .refused _ => none

end Sys2Proof.Machine
end

