-- ==== Sys2Proof/Machine/Codewords.lean ====
section
/-! DEFINITION. The meanings of the sixteen codeword rows, each written from its own rule R100 to R115: the direction, the
difference as that rule spells it, and the codeword that indexes `IndexTable`. That they agree with `DEC` (R90) is stated,
not assumed. -/

namespace Sys2Proof.Machine

/-- `DEC.P0` (R100), code 0. -/
def execDecP0 (s : State) : Outcome State Fault Refusal :=
  applyDifference .add (s.stepSize >>> 3) 0b0000#4 s

/-- `DEC.P1` (R101), code 1. -/
def execDecP1 (s : State) : Outcome State Fault Refusal :=
  applyDifference .add ((s.stepSize >>> 3) + (s.stepSize >>> 2)) 0b0001#4 s

/-- `DEC.P2` (R102), code 2. -/
def execDecP2 (s : State) : Outcome State Fault Refusal :=
  applyDifference .add ((s.stepSize >>> 3) + (s.stepSize >>> 1)) 0b0010#4 s

/-- `DEC.P3` (R103), code 3. -/
def execDecP3 (s : State) : Outcome State Fault Refusal :=
  applyDifference .add ((s.stepSize >>> 3) + (s.stepSize >>> 1) + (s.stepSize >>> 2)) 0b0011#4 s

/-- `DEC.P4` (R104), code 4. -/
def execDecP4 (s : State) : Outcome State Fault Refusal :=
  applyDifference .add ((s.stepSize >>> 3) + s.stepSize) 0b0100#4 s

/-- `DEC.P5` (R105), code 5. -/
def execDecP5 (s : State) : Outcome State Fault Refusal :=
  applyDifference .add ((s.stepSize >>> 3) + s.stepSize + (s.stepSize >>> 2)) 0b0101#4 s

/-- `DEC.P6` (R106), code 6. -/
def execDecP6 (s : State) : Outcome State Fault Refusal :=
  applyDifference .add ((s.stepSize >>> 3) + s.stepSize + (s.stepSize >>> 1)) 0b0110#4 s

/-- `DEC.P7` (R107), code 7. -/
def execDecP7 (s : State) : Outcome State Fault Refusal :=
  applyDifference .add ((s.stepSize >>> 3) + s.stepSize + (s.stepSize >>> 1) + (s.stepSize >>> 2)) 0b0111#4 s

/-- `DEC.M0` (R108), code 8. -/
def execDecM0 (s : State) : Outcome State Fault Refusal :=
  applyDifference .subtract (s.stepSize >>> 3) 0b1000#4 s

/-- `DEC.M1` (R109), code 9. -/
def execDecM1 (s : State) : Outcome State Fault Refusal :=
  applyDifference .subtract ((s.stepSize >>> 3) + (s.stepSize >>> 2)) 0b1001#4 s

/-- `DEC.M2` (R110), code 10. -/
def execDecM2 (s : State) : Outcome State Fault Refusal :=
  applyDifference .subtract ((s.stepSize >>> 3) + (s.stepSize >>> 1)) 0b1010#4 s

/-- `DEC.M3` (R111), code 11. -/
def execDecM3 (s : State) : Outcome State Fault Refusal :=
  applyDifference .subtract ((s.stepSize >>> 3) + (s.stepSize >>> 1) + (s.stepSize >>> 2)) 0b1011#4 s

/-- `DEC.M4` (R112), code 12. -/
def execDecM4 (s : State) : Outcome State Fault Refusal :=
  applyDifference .subtract ((s.stepSize >>> 3) + s.stepSize) 0b1100#4 s

/-- `DEC.M5` (R113), code 13. -/
def execDecM5 (s : State) : Outcome State Fault Refusal :=
  applyDifference .subtract ((s.stepSize >>> 3) + s.stepSize + (s.stepSize >>> 2)) 0b1101#4 s

/-- `DEC.M6` (R114), code 14. -/
def execDecM6 (s : State) : Outcome State Fault Refusal :=
  applyDifference .subtract ((s.stepSize >>> 3) + s.stepSize + (s.stepSize >>> 1)) 0b1110#4 s

/-- `DEC.M7` (R115), code 15. -/
def execDecM7 (s : State) : Outcome State Fault Refusal :=
  applyDifference .subtract ((s.stepSize >>> 3) + s.stepSize + (s.stepSize >>> 1) + (s.stepSize >>> 2)) 0b1111#4 s

end Sys2Proof.Machine
end

