-- ==== Sys2Proof/Machine/Commands.lean ====
section
/-! DEFINITION. The meanings of the command-level and packed rows: `NOP`, `INIT`, `DEC`, `DECB`, `DECB.BY`. -/

namespace Sys2Proof.Machine

/-- `NOP` (R130): nothing changes and no sample is emitted; harmless before any reset. -/
def execNop (s : State) : Outcome State Fault Refusal :=
  .next s

/-- `INIT` (R131): valid at any time, before any reset too. -/
def execInit (s : State) : Outcome State Fault Refusal :=
  .next s.startStream

/-- `DEC code` (R90). -/
def execDec (code : Codeword) (s : State) : Outcome State Fault Refusal :=
  decodeStep code s

/-- `DECB b` (R132). -/
def execDecb (b : Byte) (s : State) : Outcome State Fault Refusal :=
  decodeByte b s

/-- `DECB.BY`, the bare byte (R78, R132): the same operation. -/
def execDecbBy (b : Byte) (s : State) : Outcome State Fault Refusal :=
  decodeByte b s

end Sys2Proof.Machine
end

