-- ==== Sys2Proof/Machine/Dispatch.lean ====
section
/-! DEFINITION. The dispatch: one arm per constructor of `Instr`. -/

namespace Sys2Proof.Machine

def exec (i : Instr) (s : State) : Host.Outcome State Fault Refusal :=
  match i with
  | .nop => Sys2Proof.Machine.execNop s
  | .init => Sys2Proof.Machine.execInit s
  | .dec code => Sys2Proof.Machine.execDec code s
  | .decb b => Sys2Proof.Machine.execDecb b s
  | .decbBy b => Sys2Proof.Machine.execDecbBy b s
  | .decP0 => Sys2Proof.Machine.execDecP0 s
  | .decP1 => Sys2Proof.Machine.execDecP1 s
  | .decP2 => Sys2Proof.Machine.execDecP2 s
  | .decP3 => Sys2Proof.Machine.execDecP3 s
  | .decP4 => Sys2Proof.Machine.execDecP4 s
  | .decP5 => Sys2Proof.Machine.execDecP5 s
  | .decP6 => Sys2Proof.Machine.execDecP6 s
  | .decP7 => Sys2Proof.Machine.execDecP7 s
  | .decM0 => Sys2Proof.Machine.execDecM0 s
  | .decM1 => Sys2Proof.Machine.execDecM1 s
  | .decM2 => Sys2Proof.Machine.execDecM2 s
  | .decM3 => Sys2Proof.Machine.execDecM3 s
  | .decM4 => Sys2Proof.Machine.execDecM4 s
  | .decM5 => Sys2Proof.Machine.execDecM5 s
  | .decM6 => Sys2Proof.Machine.execDecM6 s
  | .decM7 => Sys2Proof.Machine.execDecM7 s

end Sys2Proof.Machine
end

