-- ==== Sys2Proof/Machine/Turn.lean ====
section
/-! DEFINITION. One slot of the machine: who drives the core, what the sequencer issues, and how the host's ports act. `step` only
calls `runSlot` on the next slot. -/

namespace Sys2Proof.Machine

/-- What the sequencer issues next, and where it then stands (R24, R136, R144): the byte at the cursor, read and passed by a stride;
or the high nibble of that byte, read and held; or the low nibble of the byte held, IN not read again (R41, log 23), the cursor
then moved by a stride. Nothing when no sequencer drives the block or the run is over (R140). -/
def State.issue (s : State) : Option (Encoded × Sequencer) :=
  match s.seq.walking with
  | none => none
  | some .bytes =>
    (s.readIn s.seq.cursor).map fun b => (.packed b, { s.seq with cursor := s.seq.cursor + s.cfg.byteStride.bytes })
  | some .nibbles =>
    match s.seq.phase with
    | .hi => (s.readIn s.seq.cursor).map fun b => (.cw (highNibble b), { s.seq with phase := .lo b })
    | .lo held =>
      if s.seq.cursor < s.seq.input.length then
        some (.cw (lowNibble held), { s.seq with phase := .hi, cursor := s.seq.cursor + s.cfg.byteStride.bytes })
      else none

/-- One turn of the sequencer (R136 `step`). With nothing to issue the block keeps its state (R140, R191). -/
def sequencerTurn (s : State) : Outcome State Fault Refusal :=
  match s.issue with
  | some (e, q) => exec (decode e) (s.setSeq q)
  | none => .next s

/-- R136 `start`: the sequencer gets a byte stream as its IN space. DESIGN CHOICE (log 24): it drives the block from then on, also
after its run is over, so that a later `INIT` by command word, which sets the cursor to 0 (R24), has it issue the stream again. -/
def State.loadStream (s : State) (unit : StreamUnit) (bytes : List Byte) : State :=
  { s with seq := { s.seq with walking := some unit, input := bytes } }

/-- What an accepting block does with a slot's request: the command's word decoded and executed (R76), a stream loaded and
`INIT` issued (R136 `start`, log 9), or, when the host asks for nothing, a turn of the sequencer (log 7). -/
def accept (r : Request) (s : State) : Outcome State Fault Refusal :=
  match r with
  | .command w => exec (decode (.cmd w)) s
  | .stream unit bytes => exec .init (s.loadStream unit bytes)
  | .idle => sequencerTurn s

/-- One slot: `rst` wins over everything (R184, R200); otherwise the host takes its samples and then, if the block is ready,
one request is accepted (R84, R212). A request made while the block is not ready is not accepted. -/
def runSlot (p : Slot) (s : State) : Outcome State Fault Refusal :=
  if p.rst then .next s.hardwareReset
  else if (s.handOver p.take).cmdReady then accept p.request (s.handOver p.take)
  else .next (s.handOver p.take)

/-- The slot after the script's end: the host asks for nothing and takes every sample (R213's fairness).
DESIGN CHOICE (log 6). -/
def State.idleSlot (s : State) : Slot where
  rst := false
  take := s.out.length - s.handed
  request := .idle

/-- The next slot of the host's script. -/
def State.headSlot (s : State) : Slot :=
  s.slots.headD s.idleSlot

/-- The script after its next slot. -/
def State.popSlot (s : State) : State :=
  { s with slots := s.slots.tail }

/-- IN with the byte at the cursor replaced by `f` of it; IN is lengthened with zero bytes when it ends before the cursor. -/
def State.patchIn (s : State) (unit : StreamUnit) (f : Byte → Byte) : State :=
  let padded := s.seq.input ++ List.replicate (s.seq.cursor + 1 - s.seq.input.length) 0
  s.setSeq { s.seq with walking := some unit, input := padded.modify s.seq.cursor f }

/-- A codeword placed where a nibble-wise sequencer takes its next one from: the high nibble of the byte at the cursor, or the low
nibble of the byte held, which stays the byte at the cursor. -/
def State.placeCodeword (s : State) (c : Codeword) : State :=
  match s.seq.phase with
  | .hi => s.patchIn .nibbles fun b => c ++ lowNibble b
  | .lo held =>
    let s' := s.patchIn .nibbles fun _ => highNibble held ++ c
    s'.setSeq { s'.seq with phase := .lo (highNibble held ++ c) }

/-- A slot put before the script: the host takes every sample, so that the block is ready, and makes one request. -/
def State.pushSlot (s : State) (r : Request) : State :=
  { s with slots := { rst := false, take := s.out.length - s.handed, request := r } :: s.slots }

/-- A unit placed where the machine takes its next one from: a command on the command port, a byte or a codeword at the
cursor of a sequencer that drives the block (log 15). -/
def State.placeNext (s : State) (e : Encoded) : State :=
  match e with
  | .cmd w => s.pushSlot (.command w)
  | .packed b => (s.patchIn .bytes fun _ => b).pushSlot .idle
  | .cw c => (s.placeCodeword c).pushSlot .idle

end Sys2Proof.Machine
end

