-- ==== Sys2Proof/Machine/Step.lean ====
section
/-! DEFINITION. One step of the machine, and the placing of a unit where the next step takes it from. -/

namespace Sys2Proof.Machine

/-- One step: the next slot of the host's behaviour, run on the state with that slot consumed. -/
def step (s : State) : Host.Outcome State Fault Refusal :=
  runSlot s.headSlot s.popSlot

/-- The opcode table's word placed where the next step takes its unit from (logs 14, 15). -/
def State.withFetchWord (s : State) (nbits w : Nat) : State :=
  match tableWord nbits w with
  | some e => s.placeNext e
  | none => s

end Sys2Proof.Machine
end

