-- ==== Sys2Proof/Machine/Reference.lean ====
section
/-! DEFINITION. Whole-stream decoding as the spec defines it beside the machine: `decode(bytes)` as a fold (R135), the bytes a
stride visits (R136, R137), and the command sequences that stand for a stream (R82, R135). No step calls these; claims
about the machine are stated against them. -/

namespace Sys2Proof.Machine

/-- The codewords an instruction decodes, in order (R90, R132); each emits one sample (R55). -/
def codewordsOf : Instr → List Codeword
  | .nop => []
  | .init => []
  | .dec code => [code]
  | .decb b => [highNibble b, lowNibble b]
  | .decbBy b => [highNibble b, lowNibble b]
  | .decP0 => [0]
  | .decP1 => [1]
  | .decP2 => [2]
  | .decP3 => [3]
  | .decP4 => [4]
  | .decP5 => [5]
  | .decP6 => [6]
  | .decP7 => [7]
  | .decM0 => [8]
  | .decM1 => [9]
  | .decM2 => [10]
  | .decM3 => [11]
  | .decM4 => [12]
  | .decM5 => [13]
  | .decM6 => [14]
  | .decM7 => [15]

/-- What a stream has come to: its samples, and the registers after its last codeword. -/
structure StreamResult where
  samples : List Sample
  regs : DecoderState
  deriving DecidableEq, Repr

/-- A fresh stream (R23, R131): no samples, the initial state. -/
def StreamResult.fresh : StreamResult where
  samples := []
  regs := .initial

/-- One codeword decoded into a stream: `(s, state) = DEC(code, state); out = out ++ [s]` (R135). -/
def StreamResult.codeword (cfg : Config) (acc : StreamResult) (code : Codeword) : StreamResult where
  samples := acc.samples ++ [(decodeSample cfg code acc.regs).1]
  regs := (decodeSample cfg code acc.regs).2

/-- One byte decoded into a stream: its high nibble, then its low nibble (R135, R50). -/
def StreamResult.byte (cfg : Config) (acc : StreamResult) (b : Byte) : StreamResult :=
  (acc.codeword cfg (highNibble b)).codeword cfg (lowNibble b)

/-- R136: every second element, from index 0: what a stride of 2 visits. -/
def everySecond {α : Type} : List α → List α
  | [] => []
  | [a] => [a]
  | a :: _ :: rest => a :: everySecond rest

/-- R136: the bytes at indices `0, S, 2S, ...`. -/
def visited (stride : Stride) (bytes : List Byte) : List Byte :=
  match stride with
  | .perByte => bytes
  | .skipping => everySecond bytes

/-- A stream of codewords decoded from a result so far. -/
def decodeCodewordsFrom (cfg : Config) (acc : StreamResult) (codes : List Codeword) : StreamResult :=
  codes.foldl (StreamResult.codeword cfg) acc

/-- Bytes, each of them visited, decoded from a result so far. -/
def decodeBytesFrom (cfg : Config) (acc : StreamResult) (bytes : List Byte) : StreamResult :=
  bytes.foldl (StreamResult.byte cfg) acc

/-- R135, R137: `decode(bytes)` with the configuration's stride, and the registers left. -/
def decodeStream (cfg : Config) (bytes : List Byte) : StreamResult :=
  decodeBytesFrom cfg .fresh (visited cfg.byteStride bytes)

/-- R135: a stream of bytes as a command sequence: `INIT`, then one `DECB` per visited byte. It is the expansion of `DECS` (R82). -/
def decsProgram (stride : Stride) (bytes : List Byte) : List Instr :=
  .init :: (visited stride bytes).map .decb

/-- What the sequencer has decoded when it stands where it stands (R136): every visited byte before the cursor, and, when
the low nibble is next, the high nibble of the byte at the cursor, which it holds. -/
def Sequencer.progress (cfg : Config) (q : Sequencer) : StreamResult :=
  let before := decodeBytesFrom cfg .fresh (visited cfg.byteStride (q.input.take q.cursor))
  match q.phase with
  | .hi => before
  | .lo held => before.codeword cfg (highNibble held)

end Sys2Proof.Machine
end

