-- ==== Sys2Proof/Machine/HostSide.lean ====
section
/-! DEFINITION. Host context, not hardware (R6): the header skip (R152), the byte order of serialised samples (R52, R154), the
WAV writer (R153 to R156) and the range streamer (R157 to R160), with its response, as functions no step calls (log 20). -/

namespace Sys2Proof.Machine

/-- R152, D12: `HEADER_SKIP`. -/
def headerSkip : Nat := 44

/-- R152: the file minus its first 44 bytes; a file of 44 bytes or fewer yields the empty stream. -/
def stripHeader (file : List Byte) : List Byte :=
  file.drop headerSkip

/-- R52, R154: a sample as two bytes, low byte first. -/
def sampleBytes (v : Sample) : List Byte :=
  [v.setWidth 8, (v >>> 8).setWidth 8]

/-- R155: a number in `n` bytes, little-endian. -/
def littleEndian : Nat → Nat → List Byte
  | 0, _ => []
  | n + 1, v => BitVec.ofNat 8 v :: littleEndian n (v / 256)

/-- R155: the 44-byte header for a given number of data bytes. -/
def wavHeader (dataBytes : Nat) : List Byte :=
  [0x52, 0x49, 0x46, 0x46] ++ littleEndian 4 (36 + dataBytes) ++ [0x57, 0x41, 0x56, 0x45] ++
  [0x66, 0x6D, 0x74, 0x20] ++ littleEndian 4 16 ++ littleEndian 2 1 ++ littleEndian 2 1 ++
  littleEndian 4 16000 ++ littleEndian 4 (16000 * 1 * 2) ++ littleEndian 2 (1 * 2) ++ littleEndian 2 16 ++
  [0x64, 0x61, 0x74, 0x61] ++ littleEndian 4 dataBytes

/-- Why a host function gives no result; these are no outcomes of the block. -/
inductive HostRefusal where
  /-- U12: the size fields do not fit 32 bits. -/
  | wavTooLarge
  /-- U9: a range of an empty file. -/
  | emptyFile
  /-- U10, C6: `start > end` after clamping. -/
  | invertedRange
  /-- R157: a file whose size is no `uint64`; the contract has no such file (log 20). -/
  | fileTooLarge
  deriving DecidableEq, Repr

/-- R153, R156: the WAV file of a sample sequence, refused where the spec gives the size fields no meaning (U12). -/
def wavFile (samples : List Sample) : Except HostRefusal (List Byte) :=
  if 36 + samples.length * 2 < 2 ^ 32 then
    .ok (wavHeader (samples.length * 2) ++ samples.flatMap sampleBytes)
  else .error .wavTooLarge

/-- R150, R151: what the host makes of an uploaded file with the block's help. -/
def convertUpload (cfg : Config) (file : List Byte) : Except HostRefusal (List Byte) :=
  wavFile (decodeStream cfg (stripHeader file)).samples

/-- R158: a range header as the streamer sees it; the numbers are any non-negative integers, before the clamp. -/
inductive RangeHeader where
  | absent
  | unmatched
  | range (start : Nat) (stop : Option Nat)
  deriving DecidableEq, Repr

/-- The number a run of decimal digits stands for. -/
def decimal (digits : List Char) : Nat :=
  digits.foldl (fun n c => 10 * n + (c.toNat - 48)) 0

/-- R158: the pattern `bytes=<start>-<end?>`. DESIGN CHOICE (log 20): the whole text must match, with decimal digits only. -/
def parseRange (text : List Char) : RangeHeader :=
  match text with
  | 'b' :: 'y' :: 't' :: 'e' :: 's' :: '=' :: rest =>
    let first := rest.takeWhile Char.isDigit
    match rest.dropWhile Char.isDigit with
    | '-' :: last =>
      if first.isEmpty || !last.all Char.isDigit then .unmatched
      else if last.isEmpty then .range (decimal first) none
      else .range (decimal first) (some (decimal last))
    | _ => .unmatched
  | _ => .unmatched

/-- R158: a request's range header, present or absent. -/
def readRangeHeader (text : Option (List Char)) : RangeHeader :=
  match text with
  | none => .absent
  | some t => parseRange t

/-- R157: `uint64`, the type of a file's size and of a window's three fields. -/
abbrev FileOffset := BitVec 64

/-- R157: `ByteRangeWindow`; `stop` is the rule's `end`. -/
structure ByteRangeWindow where
  start : FileOffset
  stop : FileOffset
  total : FileOffset
  deriving DecidableEq, Repr

/-- R158: `fileSize-1`, the last offset of a file that is not empty (U9). -/
def lastOffset (fileSize : FileOffset) : FileOffset :=
  fileSize - 1

/-- R158: `min(n, last)` of a parsed integer of any size, which fits since `last` does. -/
def clampOffset (n : Nat) (last : FileOffset) : FileOffset :=
  BitVec.ofNat 64 (min n last.toNat)

/-- R158: `resolveRange`, with the lenient clamp (U11); C5 gives a header that does not match the full window. -/
def resolveRange (header : RangeHeader) (fileSize : FileOffset) : Except HostRefusal ByteRangeWindow :=
  if fileSize = 0 then .error .emptyFile
  else
    match header with
    | .absent => .ok ⟨0, lastOffset fileSize, fileSize⟩
    | .unmatched => .ok ⟨0, lastOffset fileSize, fileSize⟩
    | .range start stop =>
      let first := clampOffset start (lastOffset fileSize)
      let last := (stop.map fun n => clampOffset n (lastOffset fileSize)).getD (lastOffset fileSize)
      if first ≤ last then .ok ⟨first, last, fileSize⟩ else .error .invertedRange

/-- R159, C5: 206 for a matching header, 200 otherwise. -/
def rangeStatus (header : RangeHeader) : Nat :=
  match header with
  | .absent => 200
  | .unmatched => 200
  | .range _ _ => 206

/-- A number as a header's text has it: decimal, no leading zero (R160's example; log 20). -/
def decimalText (n : Nat) : List Char :=
  Nat.toDigits 10 n

/-- R159: the number of bytes in the window, `end-start+1`. -/
def ByteRangeWindow.contentLength (w : ByteRangeWindow) : Nat :=
  w.stop.toNat - w.start.toNat + 1

/-- R159: the value of `Content-Range`, `bytes {start}-{end}/{fileSize}`. -/
def ByteRangeWindow.contentRange (w : ByteRangeWindow) : List Char :=
  "bytes ".toList ++ decimalText w.start.toNat ++ ['-'] ++ decimalText w.stop.toNat ++ ['/'] ++ decimalText w.total.toNat

/-- R159: the response headers, each with its name and value, in the rule's order. -/
def ByteRangeWindow.headers (w : ByteRangeWindow) : List (List Char × List Char) :=
  [("Accept-Ranges".toList, "bytes".toList),
   ("Content-Range".toList, w.contentRange),
   ("Content-Length".toList, decimalText w.contentLength),
   ("Cache-Control".toList, "no-cache".toList)]

/-- R159: the payload, exactly the file's bytes in `[start, end]` inclusive. -/
def ByteRangeWindow.payload (w : ByteRangeWindow) (file : List Byte) : List Byte :=
  (file.drop w.start.toNat).take w.contentLength

/-- R159: what the streamer answers. -/
structure RangeResponse where
  status : Nat
  headers : List (List Char × List Char)
  body : List Byte
  deriving DecidableEq, Repr

/-- R157 to R160: the response to a request for a stored file. DEDUCED (log 20): the four headers stand in every response, of status
200 too, since R159 lists them under no condition. -/
def respondRange (text : Option (List Char)) (file : List Byte) : Except HostRefusal RangeResponse :=
  if file.length < 2 ^ 64 then
    (resolveRange (readRangeHeader text) (BitVec.ofNat 64 file.length)).map fun w =>
      { status := rangeStatus (readRangeHeader text), headers := w.headers, body := w.payload file }
  else .error .fileTooLarge

end Sys2Proof.Machine
end

