-- ==== Sys2Proof/Safety.lean ====
section
/-! DEFINITION. What claims about runs are stated with: the launch premise, the invariant of the state, what the host leaves
alone, and that the sequencer's stream is the decode of the bytes it has visited. -/

namespace Sys2Proof.Machine

/-- R203: the launch premise of a claim about the block: a reset or an `INIT` has happened. -/
abbrev State.launched (s : State) : Prop :=
  s.initialised = true

/-- What the current stream has come to: its samples and the registers. -/
def State.result (s : State) : StreamResult where
  samples := s.streamOut
  regs := s.regs

/-- The sample of a stream heard last, or the initial predictor when it has none. -/
def State.lastHeard (s : State) : Sample :=
  s.streamOut.getLast?.getD 0

/-- The invariant of the state: the host has taken no more samples than were emitted, the block holds no more than it has
room for (R212), the current stream lies inside OUT (D15), the cursor is a multiple of the stride and does not exceed
`length(in) + BYTE_STRIDE - 1` (R24, R136), the low nibble is next only for a nibble-wise sequencer inside IN, of the byte at
the cursor (R24, R41), and the predictor is the sample of the stream heard last (R22, R97). -/
abbrev State.Inv (s : State) : Prop :=
  s.handed ≤ s.out.length ∧
  s.out.length - s.handed ≤ s.cfg.bufferDepth ∧
  s.streamStart ≤ s.out.length ∧
  s.seq.cursor % s.cfg.byteStride.bytes = 0 ∧
  s.seq.cursor ≤ s.seq.input.length + s.cfg.byteStride.bytes - 1 ∧
  (∀ b : Byte, s.seq.phase = .lo b → s.seq.walking = some .nibbles ∧ s.seq.input[s.seq.cursor]? = some b) ∧
  (s.initialised = true → s.regs.predictor = s.lastHeard)

/-- R41: the first index of IN that the sequencer has not read in its stream: the cursor, or the next index while the byte at the
cursor is held. -/
def Sequencer.firstUnread (q : Sequencer) : Nat :=
  match q.walking, q.phase with
  | some .nibbles, .lo _ => q.cursor + 1
  | _, _ => q.cursor

/-- The request is not a command word. -/
def Request.isNoCommand : Request → Bool
  | .idle => true
  | .command _ => false
  | .stream _ _ => true

/-- The host's script leaves the command port to the sequencer (R151: no two streams interleaved). -/
abbrev State.portFree (s : State) : Prop :=
  s.slots.all (fun p => p.request.isNoCommand) = true

/-- While a sequencer drives a launched block, the current stream's samples and the registers are those of decoding the bytes
visited so far (R135, R136, R140). -/
abbrev State.tracksDecode (s : State) : Prop :=
  s.initialised = true → s.seq.walking.isSome = true →
    s.result = s.seq.progress s.cfg

/-- R140: the run is over: the cursor has passed the last byte and every sample has been handed over. -/
abbrev State.runOver (s : State) : Prop :=
  s.seq.input.length ≤ s.seq.cursor ∧ s.handed = s.out.length

/-- Instructions executed one after another, each from the state the one before it left (R58). -/
def execAll : List Instr → State → Outcome State Fault Refusal
  | [], s => .next s
  | i :: rest, s => andThen (exec i s) (execAll rest)

/-- Steps one after another, stopping at the first that answers no next state. -/
def runSteps : Nat → State → Outcome State Fault Refusal
  | 0, s => .next s
  | n + 1, s => andThen (step s) (runSteps n)

/-- A slot in which the host takes up to two samples and offers one command word. -/
def commandSlot (w : CommandWord) : Slot where
  rst := false
  take := 2
  request := .command w

end Sys2Proof.Machine
end

