-- ==== Sys2Proof/Certificates/Slice0/Obligations.lean ====
section
/-! DEFINITION. The statements for the provers. Each says in its docstring which rule of spec/ it formalises, or that it is the
model's own choice and under which log entry. -/

open Sys2Proof Sys2Proof.Machine

/-! ## Reset -/

/-- R32, R200: what reset leaves: both registers 0, cursor 0, phase `hi`, OUT empty with nothing held; a launched block; and a slot
with `rst` takes the block from before its first reset (log 11) to exactly that state. -/
def Obligations.ResetGivesTheInitialStreamState : Prop :=
  State.reset.regs.predictor.toInt = 0 ∧ State.reset.regs.stepIndex.val = 0 ∧
  State.reset.seq.cursor = 0 ∧ State.reset.seq.phase = .hi ∧
  State.reset.out = [] ∧ State.reset.pending = [] ∧ State.reset.launched ∧
  ¬ State.powerOn.launched ∧
  step { State.powerOn with slots := [{ rst := true, take := 0, request := .idle }] } = .next State.reset

/-- R184, R200: a slot with `rst` resets the block whatever it requests and whatever the host takes: the registers, the cursor and
the phase, OUT empty, held samples dropped. That the configuration, IN and the sequencer's presence stay is log 12. -/
def Obligations.ResetWinsOverACoincidingRequest : Prop :=
  ∀ (s : State) (p : Slot) (rest : List Slot), s.slots = p :: rest → p.rst = true →
    step s = .next
      { s with
        regs := { predictor := 0, stepIndex := 0 }
        initialised := true
        out := []
        streamStart := 0
        handed := 0
        seq := { s.seq with cursor := 0, phase := .hi }
        slots := rest }

/-- R46, R47, R45: the default tables are as R45 demands, and `StepTable` rises strictly from 7 to 32767. `wf` also says that the
default buffer holds what one command emits: R212 wants a buffer that loses no sample, its depth of 2 is the model's (log 3). -/
def Obligations.StandardTablesAreAsTheSpecFixes : Prop :=
  standardConfig.wf = true ∧ standardStepTable[0] = 7 ∧ standardStepTable[88] = 32767 ∧
  standardSteps.Pairwise (· < ·) ∧
  (∀ c : Fin 8, standardIndexTable[c.val] = standardIndexTable[c.val + 8])

/-! ## Encodings -/

/-- R70 to R78: decoding an encoded instruction gives it back, for every instruction and every operand value. -/
def Obligations.DecodeOfEncodeIsTheInstruction : Prop :=
  ∀ i : Instr, decode (encode i) = i

/-- R70 to R76: encoding what a word decodes to gives back every bit that is read. That the bits which R75 and R76 call ignored come
back as 0 is the encoder's choice (DESIGN CHOICE, log 16); the spec lets them take any value. -/
def Obligations.EncodeOfDecodeKeepsEveryReadBit : Prop :=
  (∀ c : Codeword, encode (decode (.cw c)) = .cw c) ∧
  (∀ b : Byte, encode (decode (.packed b)) = .packed b) ∧
  (∀ w : CommandWord, encode (decode (.cmd w)) =
    .cmd (w &&& (if w.getLsbD 9 then (if w.getLsbD 8 then 0x3FF#10 else 0x30F#10) else 0x300#10)))

/-- R75, R76: the operand of a command word, and the bits of it that are ignored. -/
def Obligations.CommandFieldsAreReadAsTheMapSays : Prop :=
  (∀ data : Byte, decode (.cmd (0b00#2 ++ data)) = .nop) ∧
  (∀ data : Byte, decode (.cmd (0b01#2 ++ data)) = .init) ∧
  (∀ upper code : BitVec 4, decode (.cmd (0b10#2 ++ (upper ++ code))) = .dec code) ∧
  (∀ b : Byte, decode (.cmd (0b11#2 ++ b)) = .decb b)

/-- R76 to R79: every word of every format is accepted by exactly one row of the opcode table, that of its decoding. -/
def Obligations.EveryWordMatchesExactlyItsRow : Prop :=
  ∀ e : Encoded, (opcodeRow (decode e)).accepts e = true ∧
    ∀ i : Instr, (opcodeRow i).accepts e = true → opcodeRow i = opcodeRow (decode e)

/-- R70, R71, R72, R76, R77: words written out bit by bit decode to the instructions they stand for. -/
def Obligations.WrittenOutWordsDecode : Prop :=
  decode (.cmd 0b0011111111#10) = .nop ∧ decode (.cmd 0b0100000000#10) = .init ∧
  decode (.cmd 0b1011110001#10) = .dec 1 ∧ decode (.cmd 0b1100010111#10) = .decb 0x17 ∧
  decode (.packed 0b01001100#8) = .decbBy 0x4C ∧
  decode (.cw 0b0101#4) = .decP5 ∧ decode (.cw 0b1000#4) = .decM0 ∧ decode (.cw 0b1110#4) = .decM6

/-! ## The decode step -/

/-- R90: `DEC` from any launched state: it completes; the new predictor is the clamped exact sum, the new index the clamped sum of
the OLD index and the delta of the whole codeword, the sample the new predictor; nothing else changes. The shifts are the floors
of R12. -/
def Obligations.DecIsTheSpecifiedStep : Prop :=
  ∀ (s : State) (code : Codeword), s.launched →
    ∃ t : State, exec (.dec code) s = .next t ∧
      (let step := s.cfg.stepTable[s.regs.stepIndex.val]
       let diff : Int := step / 8 + (if code.getLsbD 2 then step else 0)
          + (if code.getLsbD 1 then step / 2 else 0) + (if code.getLsbD 0 then step / 4 else 0)
       let raw : Int := if code.getLsbD 3 then s.regs.predictor.toInt - diff else s.regs.predictor.toInt + diff
       let idx : Int := s.regs.stepIndex.val + s.cfg.indexTable[code.toNat]
       t.regs.predictor.toInt = (if raw < -32768 then -32768 else if raw > 32767 then 32767 else raw) ∧
       (t.regs.stepIndex.val : Int) = (if idx < 0 then 0 else if idx > 88 then 88 else idx) ∧
       t = { s with regs := t.regs, out := s.out ++ [t.regs.predictor] })

/-- What a codeword row's rule says: from any launched state the instruction completes, with `raw` the predictor plus `sign` times
the rule's difference of the step size, and the delta of codeword `code`. -/
abbrev RowStep (i : Instr) (code : Fin 16) (sign : Int) (diff : Nat → Nat) : Prop :=
  ∀ s : State, s.launched →
    ∃ t : State, exec i s = .next t ∧
      t.regs.predictor.toInt =
        clamp (s.regs.predictor.toInt + sign * (diff s.cfg.stepTable[s.regs.stepIndex.val] : Int)) (-32768) 32767 ∧
      (t.regs.stepIndex.val : Int) = clamp ((s.regs.stepIndex.val : Int) + s.cfg.indexTable[code.val]) 0 88 ∧
      t = { s with regs := t.regs, out := s.out ++ [t.regs.predictor] }

/-- R100 to R107: the eight adding codewords, each with its rule's difference and nothing else changed. -/
def Obligations.AddingCodewordsFollowTheirRules : Prop :=
  RowStep .decP0 0 1 (fun step => step >>> 3) ∧
  RowStep .decP1 1 1 (fun step => (step >>> 3) + (step >>> 2)) ∧
  RowStep .decP2 2 1 (fun step => (step >>> 3) + (step >>> 1)) ∧
  RowStep .decP3 3 1 (fun step => (step >>> 3) + (step >>> 1) + (step >>> 2)) ∧
  RowStep .decP4 4 1 (fun step => (step >>> 3) + step) ∧
  RowStep .decP5 5 1 (fun step => (step >>> 3) + step + (step >>> 2)) ∧
  RowStep .decP6 6 1 (fun step => (step >>> 3) + step + (step >>> 1)) ∧
  RowStep .decP7 7 1 (fun step => (step >>> 3) + step + (step >>> 1) + (step >>> 2))

/-- R108 to R115: the eight subtracting codewords, each with its rule's difference and nothing else changed. -/
def Obligations.SubtractingCodewordsFollowTheirRules : Prop :=
  RowStep .decM0 8 (-1) (fun step => step >>> 3) ∧
  RowStep .decM1 9 (-1) (fun step => (step >>> 3) + (step >>> 2)) ∧
  RowStep .decM2 10 (-1) (fun step => (step >>> 3) + (step >>> 1)) ∧
  RowStep .decM3 11 (-1) (fun step => (step >>> 3) + (step >>> 1) + (step >>> 2)) ∧
  RowStep .decM4 12 (-1) (fun step => (step >>> 3) + step) ∧
  RowStep .decM5 13 (-1) (fun step => (step >>> 3) + step + (step >>> 2)) ∧
  RowStep .decM6 14 (-1) (fun step => (step >>> 3) + step + (step >>> 1)) ∧
  RowStep .decM7 15 (-1) (fun step => (step >>> 3) + step + (step >>> 1) + (step >>> 2))

/-- R77, R90: a codeword's row is `DEC` of the codeword, in every state, launched or not. -/
def Obligations.CodewordRowsAgreeWithDec : Prop :=
  ∀ (code : Codeword) (s : State), exec (decode (.cw code)) s = exec (.dec code) s

/-- R94: the difference: four separately floored terms; between its minimum and maximum, which codewords without and with all
magnitude bits reach; no product form; at most 61436 with the default table. -/
def Obligations.DifferenceIsFourTruncatedTerms : Prop :=
  (∀ (step : Nat) (code : Codeword),
    difference step code = step / 8 + (if code.getLsbD 2 then step else 0) + (if code.getLsbD 1 then step / 2 else 0)
      + (if code.getLsbD 0 then step / 4 else 0) ∧
    step / 8 ≤ difference step code ∧ difference step code ≤ step / 8 + step + step / 2 + step / 4 ∧
    (code &&& 7 = 0 → difference step code = step / 8) ∧
    (code &&& 7 = 7 → difference step code = step / 8 + step + step / 2 + step / 4)) ∧
  difference 7 7 = 11 ∧ (15 * 7) / 8 = 13 ∧
  (∀ (i : Fin 89) (code : Codeword), difference standardStepTable[i] code ≤ 61436) ∧
  difference standardStepTable[88] 7 = 61436

/-- R96: the predictor saturates and never wraps, from the exact sum; with the default `StepTable` that sum lies in
`[-94204, 94203]` and fits 18 signed bits. -/
def Obligations.PredictorSaturatesFromTheExactSum : Prop :=
  ∀ (s : State) (code : Codeword), s.launched →
    ∃ t : State, exec (.dec code) s = .next t ∧
      (let raw := rawPredictor s.regs.predictor.toInt (direction code) (difference s.stepSize code)
       (raw > 32767 → t.regs.predictor.toInt = 32767) ∧
       (raw < -32768 → t.regs.predictor.toInt = -32768) ∧
       (-32768 ≤ raw → raw ≤ 32767 → t.regs.predictor.toInt = raw) ∧
       (s.cfg.stepTable = standardStepTable → -94204 ≤ raw ∧ raw ≤ 94203 ∧ -2 ^ 17 ≤ raw ∧ raw < 2 ^ 17))

/-- R98: the index saturates at both ends in the same step; with the default `IndexTable` the unclamped value lies in `[-1, 96]`, is
negative only from index 0 with delta -1, and is above 88 only from index 81 up. -/
def Obligations.StepIndexSaturatesInTheSameStep : Prop :=
  ∀ (s : State) (code : Codeword), s.launched →
    ∃ t : State, exec (.dec code) s = .next t ∧
      (let idx : Int := s.regs.stepIndex.val + s.cfg.indexTable[code.toNat]
       (idx < 0 → t.regs.stepIndex.val = 0) ∧
       (idx > 88 → t.regs.stepIndex.val = 88) ∧
       (0 ≤ idx → idx ≤ 88 → (t.regs.stepIndex.val : Int) = idx) ∧
       (s.cfg.indexTable = standardIndexTable →
         -1 ≤ idx ∧ idx ≤ 96 ∧ (idx < 0 → s.regs.stepIndex.val = 0 ∧ s.cfg.indexTable[code.toNat] = -1) ∧
         (idx > 88 → 81 ≤ s.regs.stepIndex.val)))

/-- R118: the source's properties as laws of `DEC`: it is a function; sample and registers are in range; `DEC 0` from `{0, 0}` gives
sample 0 and state `{0, 0}` whenever `StepTable[0] >> 3 = 0` and `IndexTable[0] = -1`; `DEC 8` from `{100, 0}` leaves the
predictor 100 whenever `StepTable[0] >> 3 = 0`, with index `clamp(0 + IndexTable[8], 0, 88)`, which is 0 with the default table. -/
def Obligations.DecHasTheSourcesTestableProperties : Prop :=
  (∀ (s : State) (code : Codeword), s.launched →
    ∃! t : State, exec (.dec code) s = .next t ∧ t.out.getLast? = some t.regs.predictor ∧
      -32768 ≤ t.regs.predictor.toInt ∧ t.regs.predictor.toInt ≤ 32767 ∧ t.regs.stepIndex.val ≤ 88) ∧
  (∀ s : State, s.launched → s.cfg.stepTable[0] >>> 3 = 0 → s.cfg.indexTable[0] = -1 →
    s.regs = { predictor := 0, stepIndex := 0 } →
    exec (.dec 0) s = .next { s with out := s.out ++ [0] }) ∧
  (∀ s : State, s.launched → s.cfg.stepTable[0] >>> 3 = 0 → s.regs = { predictor := 100, stepIndex := 0 } →
    ∃ t : State, exec (.dec 8) s = .next t ∧ t.regs.predictor.toInt = 100 ∧ t.out = s.out ++ [100] ∧
      (t.regs.stepIndex.val : Int) = clamp (0 + s.cfg.indexTable[8]) 0 88 ∧
      (s.cfg.indexTable = standardIndexTable → t.regs.stepIndex.val = 0))

/-- R116: the mirror law: codewords `m` and `8 + m` move the predictor by the same difference in opposite directions, and with the
default `IndexTable` write the same index. -/
def Obligations.MirrorCodewordsShareDifferenceAndIndex : Prop :=
  ∀ (s : State) (m : BitVec 3), s.launched →
    ∃ (up down : State) (diff : Nat),
      exec (.dec (0#1 ++ m)) s = .next up ∧ exec (.dec (1#1 ++ m)) s = .next down ∧
      diff = difference s.stepSize (0#1 ++ m) ∧
      up.regs.predictor.toInt = clamp (s.regs.predictor.toInt + diff) (-32768) 32767 ∧
      down.regs.predictor.toInt = clamp (s.regs.predictor.toInt - diff) (-32768) 32767 ∧
      (s.cfg.indexTable = standardIndexTable → up.regs.stepIndex = down.regs.stepIndex)

/-- R117: the index law with the default `IndexTable`: magnitudes up to 3 lower the index by 1, 4 to 7 raise it by 2, 4, 6, 8; and
over whole codeword sequences the index depends only on the magnitudes, never on signs, predictors or the step table. -/
def Obligations.IndexTrajectoryDependsOnMagnitudesOnly : Prop :=
  (∀ (s : State) (code : Codeword), s.launched → s.cfg.indexTable = standardIndexTable →
    ∃ t : State, exec (.dec code) s = .next t ∧
      t.regs.stepIndex.val =
        if (code &&& 7).toNat ≤ 3 then s.regs.stepIndex.val - 1
        else min (s.regs.stepIndex.val + 2 * ((code &&& 7).toNat - 3)) 88) ∧
  (∀ (s₁ s₂ : State) (codes₁ codes₂ : List Codeword), s₁.launched → s₂.launched →
    s₁.cfg.indexTable = standardIndexTable → s₂.cfg.indexTable = standardIndexTable →
    s₁.regs.stepIndex = s₂.regs.stepIndex → codes₁.map (· &&& 7) = codes₂.map (· &&& 7) →
    ∃ t₁ t₂ : State, execAll (codes₁.map .dec) s₁ = .next t₁ ∧ execAll (codes₂.map .dec) s₂ = .next t₂ ∧
      t₁.regs.stepIndex = t₂.regs.stepIndex)

/-! ## The commands -/

/-- R130: `NOP` changes nothing, in every state, launched or not. -/
def Obligations.NopChangesNothing : Prop :=
  ∀ s : State, exec .nop s = .next s

/-- R131, R32: `INIT` from every state, launched or not: registers 0 and now defined, cursor 0, phase `hi`, no sample emitted, OUT and
samples already produced kept; the new stream's samples begin here (D15, log 10). -/
def Obligations.InitStartsAFreshStream : Prop :=
  ∀ s : State, exec .init s = .next
    { s with
      regs := { predictor := 0, stepIndex := 0 }
      initialised := true
      streamStart := s.out.length
      seq := { s.seq with cursor := 0, phase := .hi } }

/-- R132, R50, R134: `DECB` and the bare byte `DECB.BY`: the high nibble's whole step, then the low nibble's from the state the first
left; two samples, the high nibble's first; nothing else changes. -/
def Obligations.DecbIsHighNibbleThenLowNibble : Prop :=
  ∀ (s : State) (b : Byte), s.launched →
    ∃ u t : State,
      exec (.dec (((b >>> 4) &&& 0xF#8).setWidth 4)) s = .next u ∧
      exec (.dec ((b &&& 0xF#8).setWidth 4)) u = .next t ∧
      exec (.decb b) s = .next t ∧ exec (.decbBy b) s = .next t ∧
      t = { s with regs := t.regs, out := s.out ++ [u.regs.predictor, t.regs.predictor] }

/-- R133: `DECB {h, l}` is `DEC h` followed by `DEC l`, in every state, launched or not. -/
def Obligations.DecbEqualsTwoDecs : Prop :=
  ∀ (s : State) (h l : Codeword), exec (.decb (h ++ l)) s = execAll [.dec h, .dec l] s

/-- R182, R203: before any reset and any `INIT` every decoding instruction is refused by name, and `NOP` and `INIT` run. -/
def Obligations.DecodesAreRefusedBeforeLaunch : Prop :=
  ∀ s : State, s.initialised = false →
    (∀ code : Codeword, exec (.dec code) s = .refused .uninitialised ∧
      exec (decode (.cw code)) s = .refused .uninitialised) ∧
    (∀ b : Byte, exec (.decb b) s = .refused .uninitialised ∧ exec (.decbBy b) s = .refused .uninitialised) ∧
    exec .nop s = .next s ∧ (∃ t : State, exec .init s = .next t ∧ t.launched)

/-- R180, R91: once launched, every instruction with every operand in every state completes, and the block stays launched. -/
def Obligations.EveryInstructionCompletesOnceLaunched : Prop :=
  ∀ (i : Instr) (s : State), s.launched → ∃ t : State, exec i s = .next t ∧ t.launched

/-- R55, R42, R61, R60: the frame of every instruction: the tables and the other parameters, IN, the host's script, and what the host
has taken are unchanged; only `INIT` moves the cursor, the phase and the stream's start; OUT gets one more sample per decoded
codeword and keeps the others. -/
def Obligations.InstructionFrame : Prop :=
  ∀ (i : Instr) (s t : State), exec i s = .next t →
    t.cfg = s.cfg ∧ t.slots = s.slots ∧ t.handed = s.handed ∧
    t.seq.input = s.seq.input ∧ t.seq.walking = s.seq.walking ∧ (∀ k : Nat, t.readIn k = s.readIn k) ∧
    (i ≠ .init → t.seq = s.seq ∧ t.streamStart = s.streamStart ∧ t.initialised = s.initialised) ∧
    (∃ new : List Sample, t.out = s.out ++ new ∧ new.length = (codewordsOf i).length)

/-- R31, R22: OUT is never read back: the registers after an instruction do not depend on what was emitted, taken or streamed before,
nor on the sequencer or the host's script. -/
def Obligations.RegistersNeverDependOnOutput : Prop :=
  ∀ (i : Instr) (s t : State) (out : List Sample) (streamStart handed : Nat) (seq : Sequencer) (slots : List Slot),
    exec i s = .next t →
    ∃ t' : State,
      exec i { s with out := out, streamStart := streamStart, handed := handed, seq := seq, slots := slots } = .next t' ∧
      t'.regs = t.regs

/-! ## Steps -/

/-- R76, R84, R212: when the next slot offers a command word and the block is ready after the host took its samples, the step is
`exec` of the decoded word. The readiness condition is the model's choice (log 4), the slot's form log 5; that the command goes
before the turn of a sequencer inside IN is log 7 (DESIGN CHOICE). -/
def Obligations.AcceptedCommandRunsItsInstruction : Prop :=
  ∀ (s : State) (p : Slot) (rest : List Slot) (w : CommandWord),
    s.slots = p :: rest → p.rst = false → p.request = .command w →
    s.out.length - (s.handed + min p.take (s.out.length - s.handed)) + 2 ≤ s.cfg.bufferDepth →
    step s = exec (decode (.cmd w))
      { s with slots := rest, handed := s.handed + min p.take (s.out.length - s.handed) }

/-- R136, R24: when the host asks for nothing and a byte-wise sequencer stands inside IN, the step is `exec` of `DECB.BY` of the byte
at the cursor, with the cursor advanced by the stride. Readiness is log 4, the slot log 5, the sequencer's turn log 7. -/
def Obligations.ByteSequencerRunsTheByteAtTheCursor : Prop :=
  ∀ (s : State) (p : Slot) (rest : List Slot) (b : Byte),
    s.slots = p :: rest → p.rst = false → p.request = .idle →
    s.out.length - (s.handed + min p.take (s.out.length - s.handed)) + 2 ≤ s.cfg.bufferDepth →
    s.seq.walking = some .bytes → s.seq.input[s.seq.cursor]? = some b →
    step s = exec (decode (.packed b))
      { s with
        slots := rest
        handed := s.handed + min p.take (s.out.length - s.handed)
        seq := { s.seq with cursor := s.seq.cursor + s.cfg.byteStride.bytes } }

/-- R24, R50, R41: when the host asks for nothing and a nibble-wise sequencer stands inside IN, the step is `exec` of the codeword that
the phase selects: the high nibble of the byte at the cursor, which is then held with its low nibble next; or the low nibble of
the byte held, whatever IN holds, after which the cursor has advanced by the stride. Readiness is log 4, the slot log 5, the
sequencer's turn log 7, the byte held log 23 (DEDUCED from R41). -/
def Obligations.NibbleSequencerRunsHighThenLow : Prop :=
  ∀ (s : State) (p : Slot) (rest : List Slot) (b : Byte),
    s.slots = p :: rest → p.rst = false → p.request = .idle →
    s.out.length - (s.handed + min p.take (s.out.length - s.handed)) + 2 ≤ s.cfg.bufferDepth →
    s.seq.walking = some .nibbles →
    (s.seq.phase = .hi → s.seq.input[s.seq.cursor]? = some b →
      step s = exec (decode (.cw (((b >>> 4) &&& 0xF#8).setWidth 4)))
        { s with
          slots := rest
          handed := s.handed + min p.take (s.out.length - s.handed)
          seq := { s.seq with phase := .lo b } }) ∧
    (s.seq.phase = .lo b → s.seq.cursor < s.seq.input.length →
      step s = exec (decode (.cw ((b &&& 0xF#8).setWidth 4)))
        { s with
          slots := rest
          handed := s.handed + min p.take (s.out.length - s.handed)
          seq := { s.seq with phase := .hi, cursor := s.seq.cursor + s.cfg.byteStride.bytes } })

/-- R136 `start`, R131: a stream handed over to a ready block becomes IN, and `INIT` runs, in every state, launched or not. That both
are one step is log 9; readiness is log 4, judged after the host's taking log 5; that the request goes before the turn of a
sequencer in mid-stream is log 7. That the new stream's samples begin where OUT then ends is log 10 (DEDUCED from R32, D15). -/
def Obligations.StreamStartLoadsAndInitialises : Prop :=
  ∀ (s : State) (p : Slot) (rest : List Slot) (unit : StreamUnit) (bytes : List Byte),
    s.slots = p :: rest → p.rst = false → p.request = .stream unit bytes →
    s.out.length - (s.handed + min p.take (s.out.length - s.handed)) + 2 ≤ s.cfg.bufferDepth →
    step s = .next
      { s with
        regs := { predictor := 0, stepIndex := 0 }
        initialised := true
        streamStart := s.out.length
        handed := s.handed + min p.take (s.out.length - s.handed)
        seq := { walking := some unit, input := bytes, cursor := 0, phase := .hi }
        slots := rest }

/-- R212: while the block could not hold two more samples no request is accepted: only the host's taking shows. The limit of two
free places is the model's choice (log 4), the buffer's depth log 3; that the host's taking comes first, and that a request not
accepted is gone, is log 5 (DESIGN CHOICE). -/
def Obligations.FullBufferAcceptsNothing : Prop :=
  ∀ (s : State) (p : Slot) (rest : List Slot),
    s.slots = p :: rest → p.rst = false →
    s.cfg.bufferDepth < s.out.length - (s.handed + min p.take (s.out.length - s.handed)) + 2 →
    step s = .next { s with slots := rest, handed := s.handed + min p.take (s.out.length - s.handed) }

/-- R191, R140: with nothing requested and no sequencer inside IN, the block keeps its state; the host may take samples. -/
def Obligations.IdleBlockKeepsItsState : Prop :=
  ∀ (s : State) (p : Slot) (rest : List Slot),
    s.slots = p :: rest → p.rst = false → p.request = .idle →
    (s.seq.walking = none ∨ s.seq.input.length ≤ s.seq.cursor) →
    step s = .next { s with slots := rest, handed := s.handed + min p.take (s.out.length - s.handed) }

/-- The model's choice (log 6), after R213's fairness: past the end of its script the host asks for nothing and takes every sample. -/
def Obligations.EndOfScriptTakesEverySample : Prop :=
  ∀ s : State, s.slots = [] →
    step s = step { s with slots := [{ rst := false, take := s.out.length - s.handed, request := .idle }] }

/-- The model's own (logs 14, 15): a word of the opcode table placed for the next step is what that step decodes and executes, on a
state with the registers, OUT and the parameters as they were. -/
def Obligations.PlacedWordIsWhatTheStepExecutes : Prop :=
  ∀ (s : State) (nbits w : Nat) (e : Encoded), tableWord nbits w = some e → 2 ≤ s.cfg.bufferDepth →
    decodeTableWord nbits w = some (decode e) ∧
    ∃ u : State, step (s.withFetchWord nbits w) = exec (decode e) u ∧
      u.regs = s.regs ∧ u.initialised = s.initialised ∧ u.cfg = s.cfg ∧ u.out = s.out ∧
      u.streamStart = s.streamStart ∧ u.slots = s.slots

/-! ## Whole-machine rules -/

/-- R180: no step of a launched block stops: it answers a next state, which is launched. -/
def Obligations.LaunchedBlockNeverStops : Prop :=
  ∀ s : State, s.launched → ∃ t : State, step s = .next t ∧ t.launched

/-- R24, R212, R22, D15: the invariant of the state is kept by every step. The buffer's depth and the readiness policy it speaks of
are logs 3 and 4, where a stream starts in OUT log 10. -/
def Obligations.EveryStepKeepsTheStateInvariant : Prop :=
  ∀ s t : State, s.Inv → step s = .next t → t.Inv

/-- The invariant of the state holds after reset. -/
def Obligations.ResetHasTheStateInvariant : Prop :=
  State.reset.Inv

/-- R42, R212: without a reset no sample is lost, overwritten or taken back: OUT only grows, by at most two samples a step, what was
taken stays taken, and no step writes the tables (R61). -/
def Obligations.OutputOnlyGrowsAndTablesStay : Prop :=
  ∀ (s t : State), s.Inv → step s = .next t →
    t.cfg = s.cfg ∧
    (s.headSlot.rst = false →
      (∃ new : List Sample, t.out = s.out ++ new ∧ new.length ≤ 2) ∧ s.handed ≤ t.handed ∧ t.handed ≤ t.out.length)

/-- R212, R58: the samples leave in order: what is offered after the host took `n` is what was held, without its first `n`; and the
sample port shows the first of them exactly when `out_valid`. -/
def Obligations.SamplesLeaveInOrder : Prop :=
  ∀ (s : State) (n : Nat), s.Inv →
    (s.handOver n).pending = s.pending.drop n ∧ s.samplePort = s.pending.head? ∧
    (s.outValid = true ↔ s.pending ≠ [])

/-- R135, R136, R140, R60: while the host leaves the command port alone, every step keeps this: a sequencer's stream is the decode of
the bytes it has visited. That a request of the host's goes before the sequencer's turn is log 7. -/
def Obligations.EveryStepKeepsTheStreamDecoded : Prop :=
  ∀ s t : State, s.Inv → s.portFree → s.tracksDecode → step s = .next t →
    t.Inv ∧ t.portFree ∧ t.tracksDecode

/-- R32, R131, R136, R200: the stream is decoded at its start: after `State.reset`, where no sequencer drives the block (log 8); after
any hardware reset, which leaves a sequencer where it is (log 12) and starts its stream; and after a stream is handed over. That
the port is free after `State.reset` is the empty script of log 5, that a stream is empty at its start is log 10 (R32, D15). -/
def Obligations.ResetAndStreamStartHaveTheStreamDecoded : Prop :=
  (State.reset.portFree ∧ State.reset.tracksDecode) ∧
  (∀ s : State, s.hardwareReset.tracksDecode) ∧
  ∀ (s : State) (unit : StreamUnit) (bytes : List Byte), (s.loadStream unit bytes).startStream.tracksDecode

/-- R140, R135: when the cursor has passed the last byte, the stream's samples are `decode(in)` and the registers are those after the
last codeword. -/
def Obligations.FinishedRunIsTheDecodeOfItsInput : Prop :=
  ∀ s : State, s.Inv → s.launched → s.seq.walking.isSome = true → s.tracksDecode →
    s.seq.input.length ≤ s.seq.cursor →
    s.streamOut = (decodeStream s.cfg s.seq.input).samples ∧ s.regs = (decodeStream s.cfg s.seq.input).regs

/-- R136, R143, R140: a sequencer at the start of its stream, left alone, finishes: after one step per visited byte (two when it walks
in nibbles) OUT has grown by `decode(in)` and the cursor has passed the last byte; one step later every sample has been handed
over. That a host whose script has ended takes every sample is log 6. -/
def Obligations.SequencerRunsItsStreamToTheEnd : Prop :=
  ∀ (s : State) (unit : StreamUnit), s.launched → s.slots = [] → s.seq.walking = some unit →
    s.seq.cursor = 0 → s.seq.phase = .hi → s.regs = .initial → s.handed ≤ s.out.length → 2 ≤ s.cfg.bufferDepth →
    ∃ t u : State,
      runSteps ((if unit = .bytes then 1 else 2) * (visited s.cfg.byteStride s.seq.input).length) s = .next t ∧
      t.out = s.out ++ (decodeStream s.cfg s.seq.input).samples ∧
      t.regs = (decodeStream s.cfg s.seq.input).regs ∧
      s.seq.input.length ≤ t.seq.cursor ∧
      step t = .next u ∧ u.runOver ∧ u.out = t.out

/-- R135: as a command sequence: `INIT` and one `DECB` per visited byte give exactly the samples and registers of `decode(bytes)`, from
every state, launched or not; which bytes are visited at stride 2 is R82, R136, R137. Where the current stream begins in OUT is
log 10 (DEDUCED from R32, D15). -/
def Obligations.DecsProgramDecodesTheStream : Prop :=
  ∀ (s : State) (bytes : List Byte),
    ∃ t : State, execAll (decsProgram s.cfg.byteStride bytes) s = .next t ∧
      t.out = s.out ++ (decodeStream s.cfg bytes).samples ∧
      t.streamOut = (decodeStream s.cfg bytes).samples ∧
      t.regs = (decodeStream s.cfg bytes).regs

/-- R135, R76, R212: the same through the command port: the encoded command words, one a slot, on a block that is ready.
Readiness is log 4, the slots log 5; that the commands go before a sequencer's turns is log 7 (DESIGN CHOICE); where the current
stream begins in OUT is log 10 (DEDUCED from R32, D15). -/
def Obligations.CommandPortDecodesTheStream : Prop :=
  ∀ (s : State) (bytes : List Byte) (words : List CommandWord),
    (decsProgram s.cfg.byteStride bytes).map encode = words.map .cmd →
    s.slots = words.map commandSlot → s.handed ≤ s.out.length → s.cmdReady = true →
    ∃ t : State, runSteps words.length s = .next t ∧
      t.out = s.out ++ (decodeStream s.cfg bytes).samples ∧
      t.streamOut = (decodeStream s.cfg bytes).samples ∧
      t.regs = (decodeStream s.cfg bytes).regs ∧ t.slots = []

/-- R138: `decode(in)` has two samples per visited byte: `2n` at stride 1, `2 * ceil(n / 2)` at stride 2 (R137). -/
def Obligations.DecodeEmitsTwoSamplesPerVisitedByte : Prop :=
  ∀ (cfg : Config) (bytes : List Byte),
    (cfg.byteStride = .perByte → (decodeStream cfg bytes).samples.length = 2 * bytes.length) ∧
    (cfg.byteStride = .skipping → (decodeStream cfg bytes).samples.length = 2 * ((bytes.length + 1) / 2))

/-- R141, R139: at stride 1, `decode(a)` starts `decode(a ++ b)`, and what follows is decoded from the state after `a`; the empty
stream has no samples and ends in `{0, 0}`. -/
def Obligations.DecodeOfAConcatenationContinues : Prop :=
  ∀ (cfg : Config), cfg.byteStride = .perByte →
    (∀ a b : List Byte,
      decodeStream cfg (a ++ b) = decodeBytesFrom cfg (decodeStream cfg a) b ∧
      (decodeStream cfg (a ++ b)).samples =
        (decodeStream cfg a).samples ++
          (decodeBytesFrom cfg { samples := [], regs := (decodeStream cfg a).regs } b).samples) ∧
    decodeStream cfg [] = { samples := [], regs := { predictor := 0, stepIndex := 0 } }

/-- R137: at stride 2 the bytes at odd indices have no effect on any sample or on the state. -/
def Obligations.SkippingStrideIgnoresOddBytes : Prop :=
  ∀ (cfg : Config) (a b : List Byte), cfg.byteStride = .skipping → a.length = b.length →
    (∀ k : Nat, a[2 * k]? = b[2 * k]?) → decodeStream cfg a = decodeStream cfg b

/-- R142, R34: nothing before an `INIT` influences the stream after it: two blocks with the same tables, whatever their registers,
samples or launch state, run every instruction sequence to the same stream and the same registers. Where the current stream begins
in OUT is log 10 (DEDUCED from R32, D15). -/
def Obligations.StreamsForgetEverythingBeforeInit : Prop :=
  ∀ (s₁ s₂ : State) (program : List Instr), s₁.cfg = s₂.cfg →
    ∃ t₁ t₂ : State, execAll (.init :: program) s₁ = .next t₁ ∧ execAll (.init :: program) s₂ = .next t₂ ∧
      t₁.streamOut = t₂.streamOut ∧ t₁.regs = t₂.regs

/-- R41, R60, D16: IN is read at strictly increasing indices, each at most once in a stream: in a slot without `rst` in which the host
asks for nothing, a step reads no index below the first unread one, so that changing such bytes changes nothing else; and that
index never moves back, and moves past what was read. The byte held between two nibbles is log 23. -/
def Obligations.BytesAlreadyReadHaveNoEffect : Prop :=
  ∀ (s t : State) (input : List Byte), s.headSlot.rst = false → s.headSlot.request = .idle →
    input.length = s.seq.input.length → (∀ k : Nat, s.seq.firstUnread ≤ k → input[k]? = s.seq.input[k]?) →
    step s = .next t →
    step { s with seq := { s.seq with input := input } } = .next { t with seq := { t.seq with input := input } } ∧
    s.seq.firstUnread ≤ t.seq.firstUnread ∧
    (s.seq.walking = some .bytes → t.out ≠ s.out → s.seq.firstUnread < t.seq.firstUnread) ∧
    (s.seq.walking = some .nibbles → s.seq.phase = .hi → t.out ≠ s.out → s.seq.firstUnread < t.seq.firstUnread)

/-! ## Host context -/

/-- R52, R154: a sample becomes two bytes, low byte first, of its two's-complement pattern. -/
def Obligations.SamplesSerialiseLowByteFirst : Prop :=
  ∀ v : Sample, ∃ low high : Byte, sampleBytes v = [low, high] ∧
    (low.toNat : Int) = v.toInt % 256 ∧ (high.toNat : Int) = v.toInt % 65536 / 256

/-- R153 to R156: the WAV file of `n` samples: the 44 header bytes as R155's hex column has them, with the two size fields 36 + 2n and
2n least significant byte first, and then sample `j` at bytes 44 + 2j (low) and 45 + 2j (high), of the pattern's two bytes (R52).
Where the size fields do not fit 32 bits the spec gives no file (U12), and the model's refusal is log 20. -/
def Obligations.WavFileHasTheFixedHeader : Prop :=
  ∀ samples : List Sample,
    (36 + 2 * samples.length < 2 ^ 32 →
      ∃ (file : List Byte) (chunkSize dataSize : Fin 4 → Byte),
        wavFile samples = .ok file ∧ file.length = 44 + 2 * samples.length ∧
        file.take 44 =
          [0x52, 0x49, 0x46, 0x46, chunkSize 0, chunkSize 1, chunkSize 2, chunkSize 3,
           0x57, 0x41, 0x56, 0x45, 0x66, 0x6D, 0x74, 0x20, 0x10, 0x00, 0x00, 0x00, 0x01, 0x00, 0x01, 0x00,
           0x80, 0x3E, 0x00, 0x00, 0x00, 0x7D, 0x00, 0x00, 0x02, 0x00, 0x10, 0x00, 0x64, 0x61, 0x74, 0x61,
           dataSize 0, dataSize 1, dataSize 2, dataSize 3] ∧
        (∀ k : Fin 4,
          (chunkSize k).toNat = (36 + 2 * samples.length) / 256 ^ k.val % 256 ∧
          (dataSize k).toNat = (2 * samples.length) / 256 ^ k.val % 256) ∧
        (∀ (j : Nat) (v : Sample), samples[j]? = some v →
          ∃ low high : Byte, file[44 + 2 * j]? = some low ∧ file[45 + 2 * j]? = some high ∧
            (low.toNat : Int) = v.toInt % 256 ∧ (high.toNat : Int) = v.toInt % 65536 / 256)) ∧
    (2 ^ 32 ≤ 36 + 2 * samples.length → wavFile samples = .error .wavTooLarge)

/-- R157, R158, R160: a resolved window lies in the file, a missing or unmatched header gives the whole file, and both ends of a
matching one, whatever their size, are clamped. The spec gives a window of an empty file (U9) and one with `start > end` after the
clamp (U10, C6) no meaning; that the model refuses them by name is log 20. -/
def Obligations.RangesResolveByLenientClamp : Prop :=
  (∀ header : RangeHeader, resolveRange header 0 = .error .emptyFile) ∧
  ∀ fileSize : FileOffset, fileSize ≠ 0 →
    (∀ (header : RangeHeader) (w : ByteRangeWindow), resolveRange header fileSize = .ok w →
      w.start.toNat ≤ w.stop.toNat ∧ w.stop.toNat ≤ w.total.toNat - 1 ∧ w.total = fileSize) ∧
    (∀ header : RangeHeader, header = .absent ∨ header = .unmatched →
      ∃ w : ByteRangeWindow, resolveRange header fileSize = .ok w ∧
        w.start.toNat = 0 ∧ w.stop.toNat = fileSize.toNat - 1 ∧ w.total = fileSize) ∧
    (∀ start stop : Nat, min start (fileSize.toNat - 1) ≤ min stop (fileSize.toNat - 1) →
      ∃ w : ByteRangeWindow, resolveRange (.range start (some stop)) fileSize = .ok w ∧
        w.start.toNat = min start (fileSize.toNat - 1) ∧ w.stop.toNat = min stop (fileSize.toNat - 1) ∧ w.total = fileSize) ∧
    (∀ start stop : Nat, min stop (fileSize.toNat - 1) < min start (fileSize.toNat - 1) →
      resolveRange (.range start (some stop)) fileSize = .error .invertedRange) ∧
    (∀ start : Nat,
      ∃ w : ByteRangeWindow, resolveRange (.range start none) fileSize = .ok w ∧
        w.start.toNat = min start (fileSize.toNat - 1) ∧ w.stop.toNat = fileSize.toNat - 1 ∧ w.total = fileSize)

/-- The text is decimal digits, at least one. -/
abbrev IsDigits (text : List Char) : Prop :=
  text ≠ [] ∧ ∀ c ∈ text, '0' ≤ c ∧ c ≤ '9'

/-- The number that decimal digits stand for. -/
abbrev digitsValue (text : List Char) : Nat :=
  text.foldl (fun n c => 10 * n + (c.toNat - 48)) 0

/-- R158: a header `bytes=<start>-<end?>` is read as its numbers, of any size, and every other text does not match. That the numbers are decimal digits and the whole text must match is log 20. -/
def Obligations.RangeHeadersAreRead : Prop :=
  readRangeHeader none = .absent ∧
  (∀ a : List Char, IsDigits a →
    readRangeHeader (some ("bytes=".toList ++ a ++ ['-'])) = .range (digitsValue a) none ∧
    ∀ b : List Char, IsDigits b →
      readRangeHeader (some ("bytes=".toList ++ a ++ ['-'] ++ b)) = .range (digitsValue a) (some (digitsValue b))) ∧
  (∀ text : List Char,
    (∀ a : List Char, IsDigits a → text ≠ "bytes=".toList ++ a ++ ['-'] ∧
      ∀ b : List Char, IsDigits b → text ≠ "bytes=".toList ++ a ++ ['-'] ++ b) →
    readRangeHeader (some text) = .unmatched)

/-- R159, R160: the response to a request whose window resolves: the status, the four headers with their values, numbers in decimal
without a leading zero, and exactly the file's bytes from `start` to `end`; with no matching header status 200 and the whole file.
That the headers stand in a 200 response too, how a number is written, and the refusal of a file whose size is no `uint64`, are log 20. -/
def Obligations.RangeResponsesHaveTheirHeadersAndBytes : Prop :=
  ∀ (text : Option (List Char)) (file : List Byte),
    (file.length < 2 ^ 64 → ∀ w : ByteRangeWindow,
      resolveRange (readRangeHeader text) (BitVec.ofNat 64 file.length) = .ok w →
      ∃ (start stop size length : List Char) (body : List Byte),
        respondRange text file = .ok
          { status := match readRangeHeader text with
              | .absent => 200
              | .unmatched => 200
              | .range _ _ => 206
            headers :=
              [("Accept-Ranges".toList, "bytes".toList),
               ("Content-Range".toList, "bytes ".toList ++ start ++ "-".toList ++ stop ++ "/".toList ++ size),
               ("Content-Length".toList, length), ("Cache-Control".toList, "no-cache".toList)]
            body := body } ∧
        (∀ p ∈ [(start, w.start.toNat), (stop, w.stop.toNat), (size, file.length), (length, w.stop.toNat - w.start.toNat + 1)],
          IsDigits p.1 ∧ digitsValue p.1 = p.2 ∧ (p.1.head? = some '0' → p.1 = ['0'])) ∧
        body.length = w.stop.toNat - w.start.toNat + 1 ∧
        (∀ k : Nat, w.start.toNat + k ≤ w.stop.toNat → body[k]? = file[w.start.toNat + k]?) ∧
        (readRangeHeader text = .absent ∨ readRangeHeader text = .unmatched → body = file)) ∧
    (2 ^ 64 ≤ file.length → respondRange text file = .error .fileTooLarge)
end

