-- ==== Sys2Proof/Laws/Arith.lean ====
section
/-! SUPPORT. The two clamps and the difference, each said once (R94, R96, R98). -/

namespace Sys2Proof.Machine

/-- R12's clamp as a maximum and a minimum. -/
theorem clamp_eq_max_min {v lo hi : Int} (h : lo ≤ hi) : clamp v lo hi = max lo (min v hi) := by
  unfold clamp; split_ifs <;> omega

/-- A clamped value lies in its range. -/
theorem clamp_mem {v lo hi : Int} (h : lo ≤ hi) : lo ≤ clamp v lo hi ∧ clamp v lo hi ≤ hi := by
  unfold clamp; split_ifs <;> omega

/-- The stored predictor is the clamped integer: saturating, never wrapping (R96). -/
theorem clampPredictor_toInt (raw : Int) : (clampPredictor raw).toInt = clamp raw (-32768) 32767 := by
  have h := clamp_mem (v := raw) (lo := -32768) (hi := 32767) (by omega)
  rw [clampPredictor, BitVec.toInt_ofInt]
  exact Int.bmod_eq_of_le (by omega) (by omega)

/-- The stored step index is the clamped integer (R98). -/
theorem clampIndex_val (raw : Int) : ((clampIndex raw).val : Int) = clamp raw 0 88 :=
  Int.toNat_of_nonneg (clamp_mem (by omega)).1

/-- The predictor after one codeword (R90 steps 3 and 4). -/
@[simp] theorem nextRegs_predictor (cfg : Config) (dir : Direction) (diff : Nat) (code : Codeword) (r : DecoderState) :
    (nextRegs cfg dir diff code r).predictor = clampPredictor (rawPredictor r.predictor.toInt dir diff) := rfl

/-- The step index after one codeword (R90 step 5). It does not depend on the predictor or the difference (R92). -/
@[simp] theorem nextRegs_stepIndex (cfg : Config) (dir : Direction) (diff : Nat) (code : Codeword) (r : DecoderState) :
    (nextRegs cfg dir diff code r).stepIndex = clampIndex (rawIndex cfg r.stepIndex code) := rfl

/-- The sample of `decodeSample` is its new predictor (R97). -/
theorem decodeSample_fst (cfg : Config) (code : Codeword) (r : DecoderState) :
    (decodeSample cfg code r).1 = (decodeSample cfg code r).2.predictor := rfl

/-- R12: the difference with each shift written as a floor of a quotient (R94). -/
theorem difference_eq_floors (step : Nat) (code : Codeword) :
    difference step code =
      step / 8 + (if code.getLsbD 2 then step else 0) + (if code.getLsbD 1 then step / 2 else 0)
        + (if code.getLsbD 0 then step / 4 else 0) := by
  simp [difference, Nat.shiftRight_eq_div_pow]

end Sys2Proof.Machine
end

