-- ==== Sys2Proof/Laws/Decode.lean ====
section
/-! SUPPORT. The bit fields of bytes and command words, said once (R72, R74). -/

namespace Sys2Proof

/-- R74: the high nibble as the spec computes it, `(b >> 4) & 0xF`. -/
theorem highNibble_eq (b : Byte) : highNibble b = ((b >>> 4) &&& 0xF#8).setWidth 4 := by
  revert b; decide

/-- R74: the low nibble as the spec computes it, `b & 0xF`. -/
theorem lowNibble_eq (b : Byte) : lowNibble b = (b &&& 0xF#8).setWidth 4 := by
  revert b; decide

@[simp] theorem highNibble_append (h l : Codeword) : highNibble (h ++ l) = h := by
  revert h l; decide

@[simp] theorem lowNibble_append (h l : Codeword) : lowNibble (h ++ l) = l := by
  revert h l; decide

/-- A byte is its two nibbles (R71). -/
theorem nibbles_append (b : Byte) : highNibble b ++ lowNibble b = b := by
  revert b; decide

/-- R72: the data field of `{cmd, data}`. -/
@[simp] theorem dataField_commandWord (cmd : BitVec 2) (data : Byte) : dataField (commandWord cmd data) = data := by
  have h (i : Nat) : (commandWord cmd data).getLsbD i = _ := BitVec.getLsbD_append (x := cmd) (y := data) (i := i)
  ext i hi
  simp [dataField, h, hi]

/-- R72: bits 9:8 of `{cmd, data}` are `cmd`. -/
theorem commandWord_cmdBits (cmd : BitVec 2) (data : Byte) :
    (commandWord cmd data).getLsbD 9 = cmd.getLsbD 1 ∧ (commandWord cmd data).getLsbD 8 = cmd.getLsbD 0 := by
  have h (i : Nat) : (commandWord cmd data).getLsbD i = _ := BitVec.getLsbD_append (x := cmd) (y := data) (i := i)
  exact ⟨h 9, h 8⟩

end Sys2Proof
end

