-- ==== Sys2Proof/Laws/Reference.lean ====
section
/-! SUPPORT. The laws of whole-stream decoding as a fold (R135 to R141). -/

namespace Sys2Proof.Machine

variable (cfg : Config)

/-- A byte is its two codewords (R132). -/
theorem StreamResult.byte_eq (acc : StreamResult) (b : Byte) :
    acc.byte cfg b = decodeCodewordsFrom cfg acc [highNibble b, lowNibble b] := rfl

/-- Decoding bytes is decoding their codewords (R135). -/
theorem decodeBytesFrom_eq_codewords (acc : StreamResult) (bytes : List Byte) :
    decodeBytesFrom cfg acc bytes
      = decodeCodewordsFrom cfg acc (bytes.flatMap fun b => [highNibble b, lowNibble b]) := by
  induction bytes generalizing acc with
  | nil => rfl
  | cons b bytes ih => exact ih _

theorem decodeCodewordsFrom_append (acc : StreamResult) (as bs : List Codeword) :
    decodeCodewordsFrom cfg acc (as ++ bs) = decodeCodewordsFrom cfg (decodeCodewordsFrom cfg acc as) bs :=
  List.foldl_append ..

theorem decodeBytesFrom_append (acc : StreamResult) (as bs : List Byte) :
    decodeBytesFrom cfg acc (as ++ bs) = decodeBytesFrom cfg (decodeBytesFrom cfg acc as) bs :=
  List.foldl_append ..

theorem decodeBytesFrom_snoc (acc : StreamResult) (as : List Byte) (b : Byte) :
    decodeBytesFrom cfg acc (as ++ [b]) = (decodeBytesFrom cfg acc as).byte cfg b :=
  decodeBytesFrom_append ..

/-- Samples already decoded stay in front, and what follows depends on the registers alone (R141). -/
theorem decodeCodewordsFrom_samples (acc : StreamResult) (codes : List Codeword) :
    decodeCodewordsFrom cfg acc codes =
      { samples := acc.samples ++ (decodeCodewordsFrom cfg { samples := [], regs := acc.regs } codes).samples
        regs := (decodeCodewordsFrom cfg { samples := [], regs := acc.regs } codes).regs } := by
  induction codes generalizing acc with
  | nil => simp [decodeCodewordsFrom]
  | cons c codes ih =>
    have h1 := ih (acc.codeword cfg c)
    have h2 := ih (StreamResult.codeword cfg { samples := [], regs := acc.regs } c)
    simp only [decodeCodewordsFrom, List.foldl_cons] at h1 h2 ⊢
    rw [h1, h2]
    simp [StreamResult.codeword]

theorem decodeBytesFrom_samples (acc : StreamResult) (bytes : List Byte) :
    decodeBytesFrom cfg acc bytes =
      { samples := acc.samples ++ (decodeBytesFrom cfg { samples := [], regs := acc.regs } bytes).samples
        regs := (decodeBytesFrom cfg { samples := [], regs := acc.regs } bytes).regs } := by
  simp only [decodeBytesFrom_eq_codewords]
  exact decodeCodewordsFrom_samples ..

/-- One sample per codeword (R42). -/
theorem decodeCodewordsFrom_length (acc : StreamResult) (codes : List Codeword) :
    (decodeCodewordsFrom cfg acc codes).samples.length = acc.samples.length + codes.length := by
  induction codes generalizing acc with
  | nil => rfl
  | cons c codes ih =>
    have h := ih (acc.codeword cfg c)
    simp only [decodeCodewordsFrom, List.foldl_cons] at h ⊢
    rw [h]; simp [StreamResult.codeword]; omega

/-- Two samples per byte (R138). -/
theorem decodeBytesFrom_length (acc : StreamResult) (bytes : List Byte) :
    (decodeBytesFrom cfg acc bytes).samples.length = acc.samples.length + 2 * bytes.length := by
  rw [decodeBytesFrom_eq_codewords, decodeCodewordsFrom_length, List.length_flatMap]
  simp; omega

/-- A stride of 2 visits `ceil(n / 2)` of `n` (R137). -/
theorem everySecond_length {α : Type} (l : List α) : (everySecond l).length = (l.length + 1) / 2 := by
  induction l using everySecond.induct with
  | case1 => simp [everySecond]
  | case2 a => simp [everySecond]
  | case3 a b rest ih => simp [everySecond, ih]; omega

/-- A stride of 2 visits exactly the even indices (R136). -/
theorem everySecond_getElem? {α : Type} (l : List α) (k : Nat) : (everySecond l)[k]? = l[2 * k]? := by
  induction l using everySecond.induct generalizing k with
  | case1 => simp [everySecond]
  | case2 a => cases k <;> simp [everySecond]
  | case3 a b rest ih =>
    cases k with
    | zero => simp [everySecond]
    | succ k => simp [everySecond, ih, Nat.mul_add]

/-- Taking two more elements visits one more (R136). -/
theorem everySecond_take_next {α : Type} (l : List α) (k : Nat) (a : α) (h : l[2 * k]? = some a) :
    everySecond (l.take (2 * k + 2)) = everySecond (l.take (2 * k)) ++ [a] := by
  induction l using everySecond.induct generalizing k with
  | case1 => simp at h
  | case2 b =>
    cases k with
    | zero => simp_all [everySecond]
    | succ k => simp [Nat.mul_add] at h
  | case3 b c rest ih =>
    cases k with
    | zero => simp_all [everySecond]
    | succ k =>
      have h' : rest[2 * k]? = some a := by simpa [Nat.mul_add] using h
      simp [Nat.mul_add, everySecond, ih k h']

/-- One byte further along the stride is one more byte visited (R136). -/
theorem visited_take_next (stride : Stride) (l : List Byte) (c : Nat) (b : Byte) (hc : c % stride.bytes = 0)
    (h : l[c]? = some b) : visited stride (l.take (c + stride.bytes)) = visited stride (l.take c) ++ [b] := by
  cases stride with
  | perByte =>
    obtain ⟨hlt, rfl⟩ := List.getElem?_eq_some_iff.mp h
    simp [visited, Stride.bytes]
  | skipping =>
    obtain ⟨k, rfl⟩ : ∃ k, c = 2 * k := ⟨c / 2, by simp [Stride.bytes] at hc; omega⟩
    exact everySecond_take_next l k b h

/-- From the cursor on, the byte there is visited first, then what lies a stride further (R136). -/
theorem visited_drop (stride : Stride) (l : List Byte) (c : Nat) (b : Byte) (h : l[c]? = some b) :
    visited stride (l.drop c) = b :: visited stride (l.drop (c + stride.bytes)) := by
  obtain ⟨hlt, rfl⟩ := List.getElem?_eq_some_iff.mp h
  rw [List.drop_eq_getElem_cons hlt]
  cases stride with
  | perByte => rfl
  | skipping =>
    simp only [visited, Stride.bytes]
    rw [show c + 2 = c + 1 + 1 from rfl, ← List.drop_drop (j := c + 1)]
    cases l.drop (c + 1) <;> simp [everySecond]

/-- A sequencer at the start of its stream has decoded nothing. -/
theorem Sequencer.progress_start (q : Sequencer) (hc : q.cursor = 0) (hp : q.phase = .hi) :
    q.progress cfg = .fresh := by
  cases hs : cfg.byteStride <;> simp [Sequencer.progress, hc, hp, hs, visited, everySecond, decodeBytesFrom]

/-- With the high nibble next, what is decoded is the bytes visited before the cursor. -/
theorem Sequencer.progress_hi (q : Sequencer) (hp : q.phase = .hi) :
    q.progress cfg = decodeBytesFrom cfg .fresh (visited cfg.byteStride (q.input.take q.cursor)) := by
  simp [Sequencer.progress, hp]

/-- A sequencer past the end of its stream has decoded all of it (R140). -/
theorem Sequencer.progress_finished (q : Sequencer) (hp : q.phase = .hi) (h : q.input.length ≤ q.cursor) :
    q.progress cfg = decodeStream cfg q.input := by
  rw [q.progress_hi cfg hp, List.take_of_length_le h]; rfl

end Sys2Proof.Machine
end

