-- ==== Sys2Proof/Laws/State.lean ====
section
/-! SUPPORT. One lemma per field per update of State, true by rfl, so that no later proof unfolds a record update. -/

namespace Sys2Proof.Machine

variable (s : State)

@[simp] theorem State.setRegs_cfg (r : DecoderState) : (s.setRegs r).cfg = s.cfg := rfl
@[simp] theorem State.setRegs_regs (r : DecoderState) : (s.setRegs r).regs = r := rfl
@[simp] theorem State.setRegs_initialised (r : DecoderState) : (s.setRegs r).initialised = s.initialised := rfl
@[simp] theorem State.setRegs_out (r : DecoderState) : (s.setRegs r).out = s.out := rfl
@[simp] theorem State.setRegs_streamStart (r : DecoderState) : (s.setRegs r).streamStart = s.streamStart := rfl
@[simp] theorem State.setRegs_handed (r : DecoderState) : (s.setRegs r).handed = s.handed := rfl
@[simp] theorem State.setRegs_seq (r : DecoderState) : (s.setRegs r).seq = s.seq := rfl
@[simp] theorem State.setRegs_slots (r : DecoderState) : (s.setRegs r).slots = s.slots := rfl

@[simp] theorem State.setSeq_cfg (q : Sequencer) : (s.setSeq q).cfg = s.cfg := rfl
@[simp] theorem State.setSeq_regs (q : Sequencer) : (s.setSeq q).regs = s.regs := rfl
@[simp] theorem State.setSeq_initialised (q : Sequencer) : (s.setSeq q).initialised = s.initialised := rfl
@[simp] theorem State.setSeq_out (q : Sequencer) : (s.setSeq q).out = s.out := rfl
@[simp] theorem State.setSeq_streamStart (q : Sequencer) : (s.setSeq q).streamStart = s.streamStart := rfl
@[simp] theorem State.setSeq_handed (q : Sequencer) : (s.setSeq q).handed = s.handed := rfl
@[simp] theorem State.setSeq_slots (q : Sequencer) : (s.setSeq q).slots = s.slots := rfl
@[simp] theorem State.setSeq_seq (q : Sequencer) : (s.setSeq q).seq = q := rfl

@[simp] theorem State.emit_cfg (v : Sample) : (s.emit v).cfg = s.cfg := rfl
@[simp] theorem State.emit_regs (v : Sample) : (s.emit v).regs = s.regs := rfl
@[simp] theorem State.emit_initialised (v : Sample) : (s.emit v).initialised = s.initialised := rfl
@[simp] theorem State.emit_out (v : Sample) : (s.emit v).out = s.out ++ [v] := rfl
@[simp] theorem State.emit_streamStart (v : Sample) : (s.emit v).streamStart = s.streamStart := rfl
@[simp] theorem State.emit_handed (v : Sample) : (s.emit v).handed = s.handed := rfl
@[simp] theorem State.emit_seq (v : Sample) : (s.emit v).seq = s.seq := rfl
@[simp] theorem State.emit_slots (v : Sample) : (s.emit v).slots = s.slots := rfl

@[simp] theorem State.startStream_cfg : (s.startStream).cfg = s.cfg := rfl
@[simp] theorem State.startStream_regs : (s.startStream).regs = .initial := rfl
@[simp] theorem State.startStream_initialised : (s.startStream).initialised = true := rfl
@[simp] theorem State.startStream_out : (s.startStream).out = s.out := rfl
@[simp] theorem State.startStream_streamStart : (s.startStream).streamStart = s.out.length := rfl
@[simp] theorem State.startStream_handed : (s.startStream).handed = s.handed := rfl
@[simp] theorem State.startStream_seq : (s.startStream).seq = { s.seq with cursor := 0, phase := .hi } := rfl
@[simp] theorem State.startStream_slots : (s.startStream).slots = s.slots := rfl

@[simp] theorem State.hardwareReset_cfg : (s.hardwareReset).cfg = s.cfg := rfl
@[simp] theorem State.hardwareReset_regs : (s.hardwareReset).regs = .initial := rfl
@[simp] theorem State.hardwareReset_initialised : (s.hardwareReset).initialised = true := rfl
@[simp] theorem State.hardwareReset_out : (s.hardwareReset).out = [] := rfl
@[simp] theorem State.hardwareReset_streamStart : (s.hardwareReset).streamStart = 0 := rfl
@[simp] theorem State.hardwareReset_handed : (s.hardwareReset).handed = 0 := rfl
@[simp] theorem State.hardwareReset_seq : (s.hardwareReset).seq = { s.seq with cursor := 0, phase := .hi } := rfl
@[simp] theorem State.hardwareReset_slots : (s.hardwareReset).slots = s.slots := rfl

@[simp] theorem State.handOver_cfg (n : Nat) : (s.handOver n).cfg = s.cfg := rfl
@[simp] theorem State.handOver_regs (n : Nat) : (s.handOver n).regs = s.regs := rfl
@[simp] theorem State.handOver_initialised (n : Nat) : (s.handOver n).initialised = s.initialised := rfl
@[simp] theorem State.handOver_out (n : Nat) : (s.handOver n).out = s.out := rfl
@[simp] theorem State.handOver_streamStart (n : Nat) : (s.handOver n).streamStart = s.streamStart := rfl
@[simp] theorem State.handOver_handed (n : Nat) : (s.handOver n).handed = s.handed + min n (s.out.length - s.handed) := rfl
@[simp] theorem State.handOver_seq (n : Nat) : (s.handOver n).seq = s.seq := rfl
@[simp] theorem State.handOver_slots (n : Nat) : (s.handOver n).slots = s.slots := rfl

@[simp] theorem State.loadStream_cfg (u : StreamUnit) (bs : List Byte) : (s.loadStream u bs).cfg = s.cfg := rfl
@[simp] theorem State.loadStream_regs (u : StreamUnit) (bs : List Byte) : (s.loadStream u bs).regs = s.regs := rfl
@[simp] theorem State.loadStream_initialised (u : StreamUnit) (bs : List Byte) : (s.loadStream u bs).initialised = s.initialised := rfl
@[simp] theorem State.loadStream_out (u : StreamUnit) (bs : List Byte) : (s.loadStream u bs).out = s.out := rfl
@[simp] theorem State.loadStream_streamStart (u : StreamUnit) (bs : List Byte) : (s.loadStream u bs).streamStart = s.streamStart := rfl
@[simp] theorem State.loadStream_handed (u : StreamUnit) (bs : List Byte) : (s.loadStream u bs).handed = s.handed := rfl
@[simp] theorem State.loadStream_seq (u : StreamUnit) (bs : List Byte) : (s.loadStream u bs).seq = { s.seq with walking := some u, input := bs } := rfl
@[simp] theorem State.loadStream_slots (u : StreamUnit) (bs : List Byte) : (s.loadStream u bs).slots = s.slots := rfl

@[simp] theorem State.popSlot_cfg : (s.popSlot).cfg = s.cfg := rfl
@[simp] theorem State.popSlot_regs : (s.popSlot).regs = s.regs := rfl
@[simp] theorem State.popSlot_initialised : (s.popSlot).initialised = s.initialised := rfl
@[simp] theorem State.popSlot_out : (s.popSlot).out = s.out := rfl
@[simp] theorem State.popSlot_streamStart : (s.popSlot).streamStart = s.streamStart := rfl
@[simp] theorem State.popSlot_handed : (s.popSlot).handed = s.handed := rfl
@[simp] theorem State.popSlot_seq : (s.popSlot).seq = s.seq := rfl
@[simp] theorem State.popSlot_slots : (s.popSlot).slots = s.slots.tail := rfl

@[simp] theorem State.pushSlot_cfg (r : Request) : (s.pushSlot r).cfg = s.cfg := rfl
@[simp] theorem State.pushSlot_regs (r : Request) : (s.pushSlot r).regs = s.regs := rfl
@[simp] theorem State.pushSlot_initialised (r : Request) : (s.pushSlot r).initialised = s.initialised := rfl
@[simp] theorem State.pushSlot_out (r : Request) : (s.pushSlot r).out = s.out := rfl
@[simp] theorem State.pushSlot_streamStart (r : Request) : (s.pushSlot r).streamStart = s.streamStart := rfl
@[simp] theorem State.pushSlot_handed (r : Request) : (s.pushSlot r).handed = s.handed := rfl
@[simp] theorem State.pushSlot_seq (r : Request) : (s.pushSlot r).seq = s.seq := rfl
@[simp] theorem State.pushSlot_slots (r : Request) : (s.pushSlot r).slots = { rst := false, take := s.out.length - s.handed, request := r } :: s.slots := rfl

@[simp] theorem State.setRegs_readIn (r : DecoderState) (k : Nat) : (s.setRegs r).readIn k = s.readIn k := rfl
@[simp] theorem State.emit_readIn (v : Sample) (k : Nat) : (s.emit v).readIn k = s.readIn k := rfl
@[simp] theorem State.startStream_readIn (k : Nat) : s.startStream.readIn k = s.readIn k := rfl
@[simp] theorem State.handOver_readIn (n k : Nat) : (s.handOver n).readIn k = s.readIn k := rfl
@[simp] theorem State.popSlot_readIn (k : Nat) : s.popSlot.readIn k = s.readIn k := rfl

/-- Handing nothing over changes nothing. -/
theorem State.handOver_zero : s.handOver 0 = s := by
  simp [State.handOver]

/-- A fresh stream has no samples yet. -/
@[simp] theorem State.startStream_streamOut : s.startStream.streamOut = [] := by
  simp [State.streamOut]

/-- A sample emitted is the stream's next sample. -/
theorem State.emit_streamOut (v : Sample) (h : s.streamStart ≤ s.out.length) :
    (s.emit v).streamOut = s.streamOut ++ [v] := by
  simp [State.streamOut, List.drop_append_of_le_length h]

end Sys2Proof.Machine
end

