-- ==== Sys2Proof/Laws/Exec.lean ====
section
/-! SUPPORT. Everything the decode operations and `exec` can do, said once. -/

namespace Sys2Proof.Machine

/-- The state after one codeword of `DEC` (R90). -/
def State.decoded (s : State) (code : Codeword) : State :=
  (s.setRegs (decodeSample s.cfg code s.regs).2).emit (decodeSample s.cfg code s.regs).1

section
variable (s : State) (code : Codeword)

@[simp] theorem State.decoded_cfg : (s.decoded code).cfg = s.cfg := rfl
@[simp] theorem State.decoded_regs : (s.decoded code).regs = (decodeSample s.cfg code s.regs).2 := rfl
@[simp] theorem State.decoded_initialised : (s.decoded code).initialised = s.initialised := rfl
@[simp] theorem State.decoded_out : (s.decoded code).out = s.out ++ [(decodeSample s.cfg code s.regs).1] := rfl
@[simp] theorem State.decoded_streamStart : (s.decoded code).streamStart = s.streamStart := rfl
@[simp] theorem State.decoded_handed : (s.decoded code).handed = s.handed := rfl
@[simp] theorem State.decoded_seq : (s.decoded code).seq = s.seq := rfl
@[simp] theorem State.decoded_slots : (s.decoded code).slots = s.slots := rfl
@[simp] theorem State.decoded_readIn (k : Nat) : (s.decoded code).readIn k = s.readIn k := rfl

end

@[simp] theorem andThen_next (s : State) (f : State → Outcome State Fault Refusal) : andThen (.next s) f = f s := rfl
@[simp] theorem andThen_refused (r : Refusal) (f : State → Outcome State Fault Refusal) :
    andThen (.refused r) f = .refused r := rfl

/-- A launched block decodes any codeword (R91). -/
theorem decodeStep_launched {s : State} (code : Codeword) (h : s.initialised = true) :
    decodeStep code s = .next (s.decoded code) := by
  simp [decodeStep, applyDifference, h, State.decoded, decodeSample, State.stepSize]

/-- Before any reset and any `INIT` every decode is refused (R182). -/
theorem decodeStep_unlaunched {s : State} (code : Codeword) (h : s.initialised = false) :
    decodeStep code s = .refused .uninitialised := by
  simp [decodeStep, applyDifference, h]

/-- A launched block decodes any byte, high nibble first (R132). -/
theorem decodeByte_launched {s : State} (b : Byte) (h : s.initialised = true) :
    decodeByte b s = .next ((s.decoded (highNibble b)).decoded (lowNibble b)) := by
  simp [decodeByte, decodeStep_launched _ h, decodeStep_launched (s := s.decoded (highNibble b)) _ h]

theorem decodeByte_unlaunched {s : State} (b : Byte) (h : s.initialised = false) :
    decodeByte b s = .refused .uninitialised := by
  simp [decodeByte, decodeStep_unlaunched _ h]

/-- Each codeword row is `DEC` of its codeword (R77, R100 to R115). -/
theorem exec_decodeCodeword (code : Codeword) (s : State) : exec (decodeCodeword code) s = decodeStep code s := by
  obtain ⟨n, rfl⟩ : ∃ n : Fin 16, code = BitVec.ofFin n := ⟨code.toFin, rfl⟩
  fin_cases n <;> rfl

/-- The state after several codewords, one after another (R58). -/
def State.decodedAll (s : State) (codes : List Codeword) : State :=
  codes.foldl State.decoded s

@[simp] theorem State.decodedAll_nil (s : State) : s.decodedAll [] = s := rfl

@[simp] theorem State.decodedAll_cons (s : State) (c : Codeword) (codes : List Codeword) :
    s.decodedAll (c :: codes) = (s.decoded c).decodedAll codes := rfl

theorem State.decodedAll_append (s : State) (as bs : List Codeword) :
    s.decodedAll (as ++ bs) = (s.decodedAll as).decodedAll bs :=
  List.foldl_append ..

/-- Decoding codewords leaves everything but the registers and OUT as it was. -/
theorem State.decodedAll_frame (s : State) (codes : List Codeword) :
    (s.decodedAll codes).cfg = s.cfg ∧ (s.decodedAll codes).initialised = s.initialised ∧
      (s.decodedAll codes).streamStart = s.streamStart ∧ (s.decodedAll codes).handed = s.handed ∧
      (s.decodedAll codes).seq = s.seq ∧ (s.decodedAll codes).slots = s.slots := by
  induction codes generalizing s with
  | nil => simp
  | cons c codes ih => simpa using ih (s.decoded c)

/-- Each codeword appends one sample to OUT (R42, R55). -/
theorem State.decodedAll_out (s : State) (codes : List Codeword) :
    ∃ new : List Sample, new.length = codes.length ∧ (s.decodedAll codes).out = s.out ++ new := by
  induction codes generalizing s with
  | nil => exact ⟨[], by simp⟩
  | cons c codes ih =>
    obtain ⟨new, hn, ho⟩ := ih (s.decoded c)
    exact ⟨(decodeSample s.cfg c s.regs).1 :: new, by simp [hn], by simp [ho]⟩

/-- Decoding codewords on the machine is decoding them into the current stream (R135). -/
theorem State.decodedAll_result (s : State) (codes : List Codeword) (h : s.streamStart ≤ s.out.length) :
    (s.decodedAll codes).result = decodeCodewordsFrom s.cfg s.result codes := by
  induction codes generalizing s with
  | nil => rfl
  | cons c codes ih =>
    have hlen : (s.decoded c).streamStart ≤ (s.decoded c).out.length := by simp; omega
    have hone : (s.decoded c).result = s.result.codeword s.cfg c := by
      simp [State.result, StreamResult.codeword, State.streamOut, List.drop_append_of_le_length h]
    simpa [hone, decodeCodewordsFrom] using ih (s.decoded c) hlen

/-- The samples that decoding codewords emits, and the registers it leaves (R90, R135). -/
theorem State.decodedAll_emitted (s : State) (codes : List Codeword) :
    (s.decodedAll codes).out = s.out ++ (decodeCodewordsFrom s.cfg { samples := [], regs := s.regs } codes).samples ∧
      (s.decodedAll codes).regs = (decodeCodewordsFrom s.cfg { samples := [], regs := s.regs } codes).regs := by
  induction codes generalizing s with
  | nil => simp [decodeCodewordsFrom]
  | cons c codes ih =>
    have e : decodeCodewordsFrom s.cfg { samples := [], regs := s.regs } (c :: codes) =
        decodeCodewordsFrom s.cfg (StreamResult.codeword s.cfg { samples := [], regs := s.regs } c) codes := rfl
    obtain ⟨h1, h2⟩ := ih (s.decoded c)
    rw [e, decodeCodewordsFrom_samples]
    simp only [State.decodedAll_cons, h1, h2]
    simp [StreamResult.codeword]

/-- `INIT` apart, what a launched block does with an instruction is to decode its codewords. -/
theorem exec_launched {i : Instr} {s : State} (hi : i ≠ .init) (h : s.initialised = true) :
    exec i s = .next (s.decodedAll (codewordsOf i)) := by
  cases i with
  | nop => rfl
  | init => exact absurd rfl hi
  | dec code => exact decodeStep_launched code h
  | decb b => exact decodeByte_launched b h
  | decbBy b => exact decodeByte_launched b h
  | decP0 => exact (exec_decodeCodeword 0 s).trans (decodeStep_launched 0 h)
  | decP1 => exact (exec_decodeCodeword 1 s).trans (decodeStep_launched 1 h)
  | decP2 => exact (exec_decodeCodeword 2 s).trans (decodeStep_launched 2 h)
  | decP3 => exact (exec_decodeCodeword 3 s).trans (decodeStep_launched 3 h)
  | decP4 => exact (exec_decodeCodeword 4 s).trans (decodeStep_launched 4 h)
  | decP5 => exact (exec_decodeCodeword 5 s).trans (decodeStep_launched 5 h)
  | decP6 => exact (exec_decodeCodeword 6 s).trans (decodeStep_launched 6 h)
  | decP7 => exact (exec_decodeCodeword 7 s).trans (decodeStep_launched 7 h)
  | decM0 => exact (exec_decodeCodeword 8 s).trans (decodeStep_launched 8 h)
  | decM1 => exact (exec_decodeCodeword 9 s).trans (decodeStep_launched 9 h)
  | decM2 => exact (exec_decodeCodeword 10 s).trans (decodeStep_launched 10 h)
  | decM3 => exact (exec_decodeCodeword 11 s).trans (decodeStep_launched 11 h)
  | decM4 => exact (exec_decodeCodeword 12 s).trans (decodeStep_launched 12 h)
  | decM5 => exact (exec_decodeCodeword 13 s).trans (decodeStep_launched 13 h)
  | decM6 => exact (exec_decodeCodeword 14 s).trans (decodeStep_launched 14 h)
  | decM7 => exact (exec_decodeCodeword 15 s).trans (decodeStep_launched 15 h)

/-- `INIT` starts a stream from any state (R131). -/
@[simp] theorem exec_init (s : State) : exec .init s = .next s.startStream := rfl

/-- `NOP` changes nothing (R130). -/
@[simp] theorem exec_nop (s : State) : exec .nop s = .next s := rfl

/-- An instruction that decodes is refused before any reset and any `INIT` (R182). -/
theorem exec_unlaunched {i : Instr} {s : State} (hc : codewordsOf i ≠ []) (h : s.initialised = false) :
    exec i s = .refused .uninitialised := by
  cases i with
  | nop => exact absurd rfl hc
  | init => exact absurd rfl hc
  | dec code => exact decodeStep_unlaunched code h
  | decb b => exact decodeByte_unlaunched b h
  | decbBy b => exact decodeByte_unlaunched b h
  | decP0 => exact (exec_decodeCodeword 0 s).trans (decodeStep_unlaunched 0 h)
  | decP1 => exact (exec_decodeCodeword 1 s).trans (decodeStep_unlaunched 1 h)
  | decP2 => exact (exec_decodeCodeword 2 s).trans (decodeStep_unlaunched 2 h)
  | decP3 => exact (exec_decodeCodeword 3 s).trans (decodeStep_unlaunched 3 h)
  | decP4 => exact (exec_decodeCodeword 4 s).trans (decodeStep_unlaunched 4 h)
  | decP5 => exact (exec_decodeCodeword 5 s).trans (decodeStep_unlaunched 5 h)
  | decP6 => exact (exec_decodeCodeword 6 s).trans (decodeStep_unlaunched 6 h)
  | decP7 => exact (exec_decodeCodeword 7 s).trans (decodeStep_unlaunched 7 h)
  | decM0 => exact (exec_decodeCodeword 8 s).trans (decodeStep_unlaunched 8 h)
  | decM1 => exact (exec_decodeCodeword 9 s).trans (decodeStep_unlaunched 9 h)
  | decM2 => exact (exec_decodeCodeword 10 s).trans (decodeStep_unlaunched 10 h)
  | decM3 => exact (exec_decodeCodeword 11 s).trans (decodeStep_unlaunched 11 h)
  | decM4 => exact (exec_decodeCodeword 12 s).trans (decodeStep_unlaunched 12 h)
  | decM5 => exact (exec_decodeCodeword 13 s).trans (decodeStep_unlaunched 13 h)
  | decM6 => exact (exec_decodeCodeword 14 s).trans (decodeStep_unlaunched 14 h)
  | decM7 => exact (exec_decodeCodeword 15 s).trans (decodeStep_unlaunched 15 h)

/-- An instruction decodes at most two codewords (R55). -/
theorem codewordsOf_length_le (i : Instr) : (codewordsOf i).length ≤ 2 := by
  cases i <;> simp [codewordsOf]

/-- A launched block runs instructions other than `INIT` by decoding their codewords in order (R58). -/
theorem execAll_launched (program : List Instr) (hi : ∀ i ∈ program, i ≠ .init) {s : State} (h : s.initialised = true) :
    execAll program s = .next (s.decodedAll (program.flatMap codewordsOf)) := by
  induction program generalizing s with
  | nil => rfl
  | cons i program ih =>
    have hl : (s.decodedAll (codewordsOf i)).initialised = true := by rw [(s.decodedAll_frame _).2.1]; exact h
    simp [execAll, exec_launched (hi i (by simp)) h, ih (fun j hj => hi j (by simp [hj])) hl, State.decodedAll_append]

/-- Everything `exec` can do when it answers a next state: start a stream, or decode the instruction's codewords, which
a block that is not launched does only when there are none. -/
theorem exec_next_cases {i : Instr} {s t : State} (h : exec i s = .next t) :
    (i = .init ∧ t = s.startStream) ∨
      (i ≠ .init ∧ (codewordsOf i ≠ [] → s.initialised = true) ∧ t = s.decodedAll (codewordsOf i)) := by
  by_cases hi : i = .init
  · subst hi; exact .inl ⟨rfl, by simpa using h.symm⟩
  · refine .inr ⟨hi, ?_⟩
    cases hl : s.initialised with
    | true => exact ⟨fun _ => rfl, by simpa [exec_launched hi hl] using h.symm⟩
    | false =>
      by_cases hc : codewordsOf i = []
      · refine ⟨fun h' => absurd hc h', ?_⟩
        cases i <;> simp_all [codewordsOf]
      · rw [exec_unlaunched hc hl] at h; cases h

end Sys2Proof.Machine
end

