-- ==== Sys2Proof/Laws/HostSide.lean ====
section
/-! SUPPORT. What the range streamer's small functions do, said once: clamped offsets, decimal texts, resolved windows. -/

namespace Sys2Proof.Machine

/-- The clamp loses no bit (R158). -/
@[simp] theorem clampOffset_toNat (n : Nat) (last : FileOffset) : (clampOffset n last).toNat = min n last.toNat := by
  have := last.isLt
  simp [clampOffset]
  omega

/-- The last offset of a file that is not empty. -/
theorem lastOffset_toNat {fileSize : FileOffset} (h : fileSize ≠ 0) : (lastOffset fileSize).toNat = fileSize.toNat - 1 := by
  unfold lastOffset
  bv_omega

/-- Everything a window that resolves can be (R158): the whole file, or a range with both ends clamped. -/
theorem resolveRange_ok_cases {header : RangeHeader} {fileSize : FileOffset} {w : ByteRangeWindow}
    (h : resolveRange header fileSize = .ok w) :
    fileSize ≠ 0 ∧ w.start.toNat ≤ w.stop.toNat ∧ w.stop.toNat ≤ fileSize.toNat - 1 ∧ w.total = fileSize ∧
      ((header = .absent ∨ header = .unmatched) → w.start = 0 ∧ w.stop = lastOffset fileSize) := by
  by_cases h0 : fileSize = 0
  · simp [resolveRange, h0] at h
  have hl := lastOffset_toNat h0
  refine ⟨h0, ?_⟩
  cases header with
  | absent => simp only [resolveRange, h0, if_false] at h; cases h; simp [hl]
  | unmatched => simp only [resolveRange, h0, if_false] at h; cases h; simp [hl]
  | range start stop =>
    simp only [resolveRange, h0, if_false] at h
    split at h
    · next hle =>
      cases h
      refine ⟨BitVec.le_def.mp hle, ?_, rfl, by simp⟩
      cases stop <;> simp [hl]
    · cases h

/-- A decimal text reads back as its number. -/
@[simp] theorem decimal_decimalText (n : Nat) : decimal (decimalText n) = n :=
  Nat.ofDigitChars_toDigits (by decide) (by decide)

/-- A decimal text is digits. -/
theorem decimalText_isDigit {n : Nat} {c : Char} (h : c ∈ decimalText n) : c.isDigit = true :=
  Nat.isDigit_of_mem_toDigits (by decide) (by decide) h

/-- A decimal text is never empty. -/
theorem decimalText_ne_nil (n : Nat) : decimalText n ≠ [] :=
  Nat.toDigits_ne_nil

/-- A decimal text has no leading zero, unless it is zero's. -/
theorem decimalText_head (n : Nat) (h : (decimalText n).head? = some '0') : decimalText n = ['0'] := by
  induction n using Nat.strongRecOn with
  | ind n ih =>
    unfold decimalText at h ih ⊢
    by_cases hn : n < 10
    · rw [Nat.toDigits_of_lt_base hn] at h ⊢
      simpa using h
    · rw [Nat.toDigits_of_base_le (by decide) (by omega)] at h
      rw [List.head?_append_of_ne_nil _ Nat.toDigits_ne_nil] at h
      have h0 := ih (n / 10) (by omega) h
      have := Nat.ofDigitChars_toDigits (b := 10) (n := n / 10) (by decide) (by decide)
      rw [h0] at this
      simp [Nat.ofDigitChars] at this
      omega

end Sys2Proof.Machine
end

