-- ==== Sys2Proof/Laws/Step.lean ====
section
/-! SUPPORT. Everything one slot, one request and one step can do, said once; and what each keeps of the invariant. -/

namespace Sys2Proof.Machine

/-- Everything a step can do when it answers a next state: a reset, a slot in which nothing is accepted, or one request
accepted after the host took its samples. -/
theorem step_next_cases {s t : State} (h : step s = .next t) :
    (s.headSlot.rst = true ∧ t = s.popSlot.hardwareReset) ∨
      (s.headSlot.rst = false ∧ (s.popSlot.handOver s.headSlot.take).cmdReady = false ∧
        t = s.popSlot.handOver s.headSlot.take) ∨
      (s.headSlot.rst = false ∧ (s.popSlot.handOver s.headSlot.take).cmdReady = true ∧
        accept s.headSlot.request (s.popSlot.handOver s.headSlot.take) = .next t) := by
  unfold step runSlot at h
  cases hr : s.headSlot.rst with
  | true => simp [hr] at h; exact .inl ⟨rfl, h.symm⟩
  | false =>
    cases hc : (s.popSlot.handOver s.headSlot.take).cmdReady with
    | false => simp [hr, hc] at h; exact .inr (.inl ⟨rfl, rfl, h.symm⟩)
    | true => simp [hr, hc] at h; exact .inr (.inr ⟨rfl, rfl, h⟩)

/-- A ready block without `rst` accepts the slot's request. -/
theorem step_accept {s : State} (hr : s.headSlot.rst = false)
    (hc : (s.popSlot.handOver s.headSlot.take).cmdReady = true) :
    step s = accept s.headSlot.request (s.popSlot.handOver s.headSlot.take) := by
  simp [step, runSlot, hr, hc]

/-- Everything the sequencer can issue, with where it then stands. -/
theorem State.issue_cases {s : State} {e : Encoded} {q : Sequencer} (h : s.issue = some (e, q)) :
    (s.seq.walking = some .bytes ∧ ∃ b, s.seq.input[s.seq.cursor]? = some b ∧ e = .packed b ∧
      q = { s.seq with cursor := s.seq.cursor + s.cfg.byteStride.bytes }) ∨
    (s.seq.walking = some .nibbles ∧ s.seq.phase = .hi ∧ ∃ b, s.seq.input[s.seq.cursor]? = some b ∧
      e = .cw (highNibble b) ∧ q = { s.seq with phase := .lo b }) ∨
    (s.seq.walking = some .nibbles ∧ s.seq.cursor < s.seq.input.length ∧ ∃ b, s.seq.phase = .lo b ∧
      e = .cw (lowNibble b) ∧ q = { s.seq with phase := .hi, cursor := s.seq.cursor + s.cfg.byteStride.bytes }) := by
  unfold State.issue at h
  split at h
  · cases h
  · next hw =>
    obtain ⟨b, hb, h⟩ := Option.map_eq_some_iff.mp h
    cases h
    exact .inl ⟨hw, b, hb, rfl, rfl⟩
  · next hw =>
    split at h
    · next hp =>
      obtain ⟨b, hb, h⟩ := Option.map_eq_some_iff.mp h
      cases h
      exact .inr (.inl ⟨hw, hp, b, hb, rfl, rfl⟩)
    · next b hp =>
      split at h
      · next hlt => cases h; exact .inr (.inr ⟨hw, hlt, b, hp, rfl, rfl⟩)
      · cases h

/-- What the sequencer issues is a byte or a codeword, never `INIT`; IN stays, and so does what drives the block. -/
theorem State.issue_frame {s : State} {e : Encoded} {q : Sequencer} (h : s.issue = some (e, q)) :
    decode e ≠ .init ∧ q.input = s.seq.input ∧ q.walking = s.seq.walking := by
  have hcw : ∀ c : Codeword, decode (.cw c) ≠ .init := by decide
  obtain ⟨-, b, -, rfl, rfl⟩ | ⟨-, -, b, -, rfl, rfl⟩ | ⟨-, -, b, -, rfl, rfl⟩ := State.issue_cases h
  · exact ⟨fun hd => (by cases hd), rfl, rfl⟩
  · exact ⟨hcw _, rfl, rfl⟩
  · exact ⟨hcw _, rfl, rfl⟩

/-- Nothing is issued without a sequencer, or past the end of IN (R140). -/
theorem State.issue_none {s : State} (h : s.seq.walking = none ∨ s.seq.input.length ≤ s.seq.cursor) : s.issue = none := by
  unfold State.issue State.readIn
  rcases h with h | h
  · simp [h]
  · rw [List.getElem?_eq_none h]
    split
    · rfl
    · rfl
    · split <;> simp [h]

/-- Runs compose. -/
theorem runSteps_add (a b : Nat) (s : State) : runSteps (a + b) s = andThen (runSteps a s) (runSteps b) := by
  induction a generalizing s with
  | zero => simp [runSteps]
  | succ a ih =>
    rw [Nat.succ_add, runSteps, runSteps]
    cases step s <;> simp [andThen, ih]

/-- A codeword row decodes its codeword. -/
theorem codewordsOf_decodeCodeword (c : Codeword) : codewordsOf (decodeCodeword c) = [c] := by
  revert c; decide

end Sys2Proof.Machine
end

