-- ==== Sys2Proof/Laws/Invariant.lean ====
section
/-! SUPPORT. What each operation keeps of the state's invariant and of the stream's decoding; a step is made of these. -/

namespace Sys2Proof.Machine

/-- The invariant does not read the host's script. -/
theorem State.popSlot_inv {s : State} (h : s.Inv) : s.popSlot.Inv := h

/-- Handing samples over keeps the invariant (R212). -/
theorem State.handOver_inv {s : State} (n : Nat) (h : s.Inv) : (s.handOver n).Inv := by
  obtain ⟨h1, h2, h3, h4, h5, h6, h7⟩ := h
  refine ⟨?_, ?_, h3, h4, h5, h6, h7⟩ <;> simp <;> omega

/-- Hardware reset establishes the invariant (R200). -/
theorem State.hardwareReset_inv (s : State) : s.hardwareReset.Inv := by
  refine ⟨?_, ?_, ?_, ?_, ?_, ?_, ?_⟩ <;> simp [State.lastHeard, State.streamOut, DecoderState.initial]

/-- Starting a stream keeps the invariant (R131). -/
theorem State.startStream_inv {s : State} (h1 : s.handed ≤ s.out.length)
    (h2 : s.out.length - s.handed ≤ s.cfg.bufferDepth) : s.startStream.Inv := by
  refine ⟨h1, h2, ?_, ?_, ?_, ?_, ?_⟩ <;> simp [State.lastHeard, DecoderState.initial]

/-- The sample of a codeword is the sample of the stream heard last (R97). -/
theorem State.decoded_lastHeard (s : State) (c : Codeword) (h : s.streamStart ≤ s.out.length) :
    (s.decoded c).regs.predictor = (s.decoded c).lastHeard := by
  simp [State.lastHeard, State.streamOut, List.drop_append_of_le_length h, decodeSample_fst]

/-- After at least one codeword the predictor is the sample heard last, whatever it was before (R97). -/
theorem State.decodedAll_lastHeard (s : State) (codes : List Codeword) (h : s.streamStart ≤ s.out.length)
    (hs : codes = [] → s.regs.predictor = s.lastHeard) :
    (s.decodedAll codes).regs.predictor = (s.decodedAll codes).lastHeard := by
  induction codes generalizing s with
  | nil => exact hs rfl
  | cons c codes ih =>
    have hlen : (s.decoded c).streamStart ≤ (s.decoded c).out.length := by simp; omega
    exact ih (s.decoded c) hlen fun _ => s.decoded_lastHeard c h

/-- Decoding up to two codewords with room for two samples keeps the invariant (R212). -/
theorem State.decodedAll_inv {s : State} (codes : List Codeword) (hl : codes.length ≤ 2) (hc : s.cmdReady = true)
    (h : s.Inv) : (s.decodedAll codes).Inv := by
  obtain ⟨h1, h2, h3, h4, h5, h6, h7⟩ := h
  obtain ⟨f1, f2, f3, f4, f5, -⟩ := s.decodedAll_frame codes
  obtain ⟨new, hn, ho⟩ := s.decodedAll_out codes
  have hready : s.out.length - s.handed + 2 ≤ s.cfg.bufferDepth := of_decide_eq_true hc
  unfold State.Inv
  rw [f1, f2, f3, f4, f5, ho]
  refine ⟨?_, ?_, ?_, h4, h5, h6, fun hi => s.decodedAll_lastHeard codes h3 fun _ => h7 hi⟩ <;>
    simp <;> omega

/-- What an instruction does with room for two samples keeps the invariant. -/
theorem exec_inv {i : Instr} {s t : State} (hc : s.cmdReady = true) (h : s.Inv) (ht : exec i s = .next t) : t.Inv := by
  rcases exec_next_cases ht with ⟨-, rfl⟩ | ⟨-, -, rfl⟩
  · exact State.startStream_inv h.1 h.2.1
  · exact State.decodedAll_inv _ (codewordsOf_length_le i) hc h

/-- A nibble-wise sequencer is the only one with the low nibble next (R24). -/
theorem State.Inv.phase_hi {s : State} (h : s.Inv) (hw : s.seq.walking = some .bytes) : s.seq.phase = .hi := by
  cases hp : s.seq.phase with
  | hi => rfl
  | lo b => have := (h.2.2.2.2.2.1 b hp).1; rw [hw] at this; cases this

/-- A stride from a cursor inside IN: still a multiple of the stride, and at most `length(in) + BYTE_STRIDE - 1` (R24). -/
theorem cursor_stride {stride : Stride} {cursor length : Nat} (hm : cursor % stride.bytes = 0) (hlt : cursor < length) :
    (cursor + stride.bytes) % stride.bytes = 0 ∧ cursor + stride.bytes ≤ length + stride.bytes - 1 := by
  cases stride <;> simp_all [Stride.bytes]

/-- Moving the sequencer on inside IN keeps the invariant (R24, R41). -/
theorem State.issue_inv {s : State} {e : Encoded} {q : Sequencer} (hf : s.issue = some (e, q)) (h : s.Inv) :
    (s.setSeq q).Inv := by
  obtain ⟨h1, h2, h3, h4, h5, h6, h7⟩ := h
  obtain ⟨hw, b, hb, -, rfl⟩ | ⟨hw, hp, b, hb, -, rfl⟩ | ⟨hw, hlt, b, hp, -, rfl⟩ := State.issue_cases hf
  · obtain ⟨hm, hle⟩ := cursor_stride h4 (List.getElem?_eq_some_iff.mp hb).1
    have hp := State.Inv.phase_hi ⟨h1, h2, h3, h4, h5, h6, h7⟩ hw
    exact ⟨h1, h2, h3, hm, hle, fun b hlo => absurd (hp.symm.trans hlo) (by simp), h7⟩
  · exact ⟨h1, h2, h3, h4, h5, fun b' hlo => (by cases hlo; exact ⟨hw, hb⟩), h7⟩
  · obtain ⟨hm, hle⟩ := cursor_stride h4 hlt
    exact ⟨h1, h2, h3, hm, hle, fun b' hlo => (by cases hlo), h7⟩

/-- The unit the sequencer issues carries its progress to where it moves on to (R136). -/
theorem State.issue_progress {s : State} {e : Encoded} {q : Sequencer} (hf : s.issue = some (e, q)) (h : s.Inv) :
    q.progress s.cfg = decodeCodewordsFrom s.cfg (s.seq.progress s.cfg) (codewordsOf (decode e)) := by
  obtain ⟨-, -, -, h4, -, h6, -⟩ := id h
  obtain ⟨hw, b, hb, rfl, rfl⟩ | ⟨hw, hp, b, hb, rfl, rfl⟩ | ⟨hw, hlt, b, hp, rfl, rfl⟩ := State.issue_cases hf
  · have hp := h.phase_hi hw
    rw [Sequencer.progress_hi _ s.seq hp, Sequencer.progress_hi]
    · rw [visited_take_next _ _ _ b h4 hb, decodeBytesFrom_snoc]
      rfl
    · exact hp
  · simp [hp, Sequencer.progress, decode, codewordsOf_decodeCodeword, decodeCodewordsFrom]
  · rw [Sequencer.progress_hi _ _ rfl, visited_take_next _ _ _ b h4 (h6 b hp).2, decodeBytesFrom_snoc]
    simp [Sequencer.progress, hp, decode, codewordsOf_decodeCodeword, decodeCodewordsFrom, StreamResult.byte]

end Sys2Proof.Machine
end

