-- ==== Sys2Proof/Laws/PerInstr.lean ====
section
/-! SUPPORT. Statements made per instruction: the encoding of an instruction stands in its row of spec/opcode_table.json,
whatever its operands. -/

namespace Sys2Proof.Laws.EncodesInItsRow

/-- The encoding has the row's format and fixed bits. -/
def Statement (i : Instr) : Prop :=
  (opcodeRow i).accepts (encode i) = true

theorem nop : Statement .nop := by unfold Statement; decide
theorem init : Statement .init := by unfold Statement; decide
theorem dec (code : Codeword) : Statement (.dec code) := by unfold Statement; revert code; decide
theorem decb (b : Byte) : Statement (.decb b) := by unfold Statement; revert b; decide
theorem decbBy (b : Byte) : Statement (.decbBy b) := by unfold Statement; revert b; decide
theorem decP0 : Statement .decP0 := by unfold Statement; decide
theorem decP1 : Statement .decP1 := by unfold Statement; decide
theorem decP2 : Statement .decP2 := by unfold Statement; decide
theorem decP3 : Statement .decP3 := by unfold Statement; decide
theorem decP4 : Statement .decP4 := by unfold Statement; decide
theorem decP5 : Statement .decP5 := by unfold Statement; decide
theorem decP6 : Statement .decP6 := by unfold Statement; decide
theorem decP7 : Statement .decP7 := by unfold Statement; decide
theorem decM0 : Statement .decM0 := by unfold Statement; decide
theorem decM1 : Statement .decM1 := by unfold Statement; decide
theorem decM2 : Statement .decM2 := by unfold Statement; decide
theorem decM3 : Statement .decM3 := by unfold Statement; decide
theorem decM4 : Statement .decM4 := by unfold Statement; decide
theorem decM5 : Statement .decM5 := by unfold Statement; decide
theorem decM6 : Statement .decM6 := by unfold Statement; decide
theorem decM7 : Statement .decM7 := by unfold Statement; decide

end Sys2Proof.Laws.EncodesInItsRow
end

