-- ==== Sys2Proof/Tests/Slice0.lean ====
section
/-! SUPPORT. Tests of the model against vectors of spec/95_test_vectors.md (S, D and P numbers below) and words written out from
spec/30_encoding.md; the refusals of each well-formedness check; and, for every obligation with hypotheses, a concrete
witness that meets them together. -/

namespace Sys2Proof.Tests

open Sys2Proof Sys2Proof.Machine

/-! ## Helpers -/

/-- A launched block with given registers. -/
def ready (predictor : Int) (stepIndex : Fin 89) : State :=
  { State.reset with regs := { predictor := BitVec.ofInt 16 predictor, stepIndex := stepIndex } }

/-- What an instruction leaves, as the spec's vectors write it: the samples emitted, the predictor, the step index. -/
def seen (o : Outcome State Fault Refusal) : Option (List Int × Int × Nat) :=
  (nextState? o).map fun t => (t.out.map BitVec.toInt, t.regs.predictor.toInt, t.regs.stepIndex.val)

/-- A slot that takes nothing and requests something. -/
def asks (r : Request) : Slot where
  rst := false
  take := 0
  request := r

/-- A block with a sequencer at the start of a stream. -/
def walker (unit : StreamUnit) (bytes : List Byte) : State :=
  { State.reset with seq := { walking := some unit, input := bytes, cursor := 0, phase := .hi } }

/-- A nibble-wise sequencer between the two nibbles of its first byte: it holds `17`, and IN has another byte there. -/
def midByte (inByte : Byte) : State :=
  (walker .nibbles [inByte]).setSeq { walking := some .nibbles, input := [inByte], cursor := 0, phase := .lo 0x17 }

/-- A byte-wise sequencer past its only byte. -/
def pastEnd : State :=
  (walker .bytes [0x17]).setSeq { walking := some .bytes, input := [0x17], cursor := 1, phase := .hi }

/-- A block that holds two samples it cannot hand over. -/
def full : State :=
  { State.reset with out := [1, 2], regs := { predictor := 2, stepIndex := 0 } }

/-- The standard configuration with the defect stride. -/
def skippingConfig : Config :=
  { standardConfig with byteStride := .skipping }

/-! ## Decoding: words written out from 30_encoding.md R70 to R77 -/

theorem test_decode_nop_ignores_data : decode (.cmd 0b0010100101#10) = .nop := by decide
theorem test_decode_init_ignores_data : decode (.cmd 0b0111111111#10) = .init := by decide
/-- D9: the command word `10 1111 0001`. -/
theorem test_decode_dec_ignores_upper_data : decode (.cmd 0b1011110001#10) = .dec 1 := by decide
/-- P2: the command word `11 01001100`. -/
theorem test_decode_decb : decode (.cmd 0b1101001100#10) = .decb 0x4C := by decide
theorem test_decode_packed_byte : decode (.packed 0b10100011#8) = .decbBy 0xA3 := by decide
theorem test_decode_adding_codewords :
    [0b0000#4, 0b0001#4, 0b0010#4, 0b0011#4, 0b0100#4, 0b0101#4, 0b0110#4, 0b0111#4].map (fun c => decode (.cw c)) =
      [.decP0, .decP1, .decP2, .decP3, .decP4, .decP5, .decP6, .decP7] := by decide
theorem test_decode_subtracting_codewords :
    [0b1000#4, 0b1001#4, 0b1010#4, 0b1011#4, 0b1100#4, 0b1101#4, 0b1110#4, 0b1111#4].map (fun c => decode (.cw c)) =
      [.decM0, .decM1, .decM2, .decM3, .decM4, .decM5, .decM6, .decM7] := by decide
theorem test_table_word_command : decodeTableWord 16 0x317 = some (.decb 0x17) := by decide
theorem test_table_word_codeword : decodeTableWord 8 0xC = some .decM4 := by decide
theorem test_table_word_byte : decodeTableWord 8 0x4C = some (.decbBy 0x4C) := by decide
theorem test_table_word_too_wide : decodeTableWord 16 0x400 = none := by decide
theorem test_raw_command_rejected_by_name :
    (match decodeRaw ⟨.cmd, 0x400⟩ with | .error (.tooWide .cmd) => true | _ => false) = true := by decide

/-! ## Well-formedness: one ill-formed term for each check -/

theorem smoke_codeword_too_wide : RawWord.wf ⟨.cw, 16⟩ = false := by decide
theorem smoke_byte_too_wide : RawWord.wf ⟨.packed, 256⟩ = false := by decide
theorem smoke_command_too_wide : RawWord.wf ⟨.cmd, 1024⟩ = false := by decide
theorem smoke_widest_words_fit : RawWord.wf ⟨.cw, 15⟩ && RawWord.wf ⟨.packed, 255⟩ && RawWord.wf ⟨.cmd, 1023⟩ = true := by decide
theorem smoke_step_not_positive :
    Config.stepsPositive { standardConfig with stepTable := standardStepTable.set 5 0 } = false := by decide
theorem smoke_first_step_too_large :
    Config.firstStepSmall { standardConfig with stepTable := standardStepTable.set 0 8 } = false := by decide
theorem smoke_first_delta_wrong :
    Config.firstDeltaMinusOne { standardConfig with indexTable := standardIndexTable.set 0 0 } = false := by decide
theorem smoke_buffer_too_small : Config.bufferHoldsOneCommand { standardConfig with bufferDepth := 1 } = false := by decide
theorem smoke_standard_config : standardConfig.wf = true := by decide

/-! ## Commands -/

/-- D9. -/
theorem test_nop : seen (exec .nop (ready 5 3)) = some ([], 5, 3) := by decide
/-- D9. -/
theorem test_init : seen (exec .init (ready (-1200) 57)) = some ([], 0, 0) := by decide
/-- R90's worked example. -/
theorem test_dec : seen (exec (.dec 5) (ready 1000 40)) = some ([1463], 1463, 44) := by decide
/-- S1. -/
theorem test_dec_known_vector : seen (exec (.dec 0) (ready 0 0)) = some ([0], 0, 0) := by decide
/-- D9: the nibble order matters. -/
theorem test_decb_high_first : seen (exec (.decb 0x71) (ready 0 0)) = some ([11, 17], 17, 7) := by decide
/-- D9: equal nibbles, different steps. -/
theorem test_decb_equal_nibbles : seen (exec (.decb 0x77) (ready 0 0)) = some ([11, 41], 41, 16) := by decide
/-- D9. -/
theorem test_decbBy : seen (exec (.decbBy 0x17) (ready 0 0)) = some ([1, 12], 12, 8) := by decide
/-- R203. -/
theorem test_dec_before_reset_refused :
    (match exec (.dec 0) State.powerOn with | .refused .uninitialised => true | _ => false) = true := by decide

/-! ## Codewords: from (1000, 40) by D2, and from a corner state -/
theorem test_decP0 : seen (exec .decP0 (ready 1000 40)) = some ([1042], 1042, 39) := by decide
/-- D4: saturates. -/
theorem test_decP0_corner : seen (exec .decP0 (ready 32767 88)) = some ([32767], 32767, 87) := by decide
theorem test_decP1 : seen (exec .decP1 (ready 1000 40)) = some ([1126], 1126, 39) := by decide
/-- D7: smallest overshoot. -/
theorem test_decP1_corner : seen (exec .decP1 (ready 32767 0)) = some ([32767], 32767, 0) := by decide
theorem test_decP2 : seen (exec .decP2 (ready 1000 40)) = some ([1210], 1210, 39) := by decide
/-- D3. -/
theorem test_decP2_corner : seen (exec .decP2 (ready (-5) 3)) = some ([1], 1, 2) := by decide
theorem test_decP3 : seen (exec .decP3 (ready 1000 40)) = some ([1294], 1294, 39) := by decide
/-- D8: index clamps at 0. -/
theorem test_decP3_corner : seen (exec .decP3 (ready 0 0)) = some ([4], 4, 0) := by decide
theorem test_decP4 : seen (exec .decP4 (ready 1000 40)) = some ([1379], 1379, 42) := by decide
/-- D7: one past the rail. -/
theorem test_decP4_corner : seen (exec .decP4 (ready 32761 0)) = some ([32767], 32767, 2) := by decide
theorem test_decP5 : seen (exec .decP5 (ready 1000 40)) = some ([1463], 1463, 44) := by decide
/-- D6: both clamps. -/
theorem test_decP5_corner : seen (exec .decP5 (ready 30000 85)) = some ([32767], 32767, 88) := by decide
theorem test_decP6 : seen (exec .decP6 (ready 1000 40)) = some ([1547], 1547, 46) := by decide
/-- D8: clamps. -/
theorem test_decP6_corner : seen (exec .decP6 (ready 0 83)) = some ([32767], 32767, 88) := by decide
theorem test_decP7 : seen (exec .decP7 (ready 1000 40)) = some ([1631], 1631, 48) := by decide
/-- D8: index clamps, predictor does not. -/
theorem test_decP7_corner : seen (exec .decP7 (ready 0 81)) = some ([31533], 31533, 88) := by decide
theorem test_decM0 : seen (exec .decM0 (ready 1000 40)) = some ([958], 958, 39) := by decide
/-- S2. -/
theorem test_decM0_corner : seen (exec .decM0 (ready 100 0)) = some ([100], 100, 0) := by decide
theorem test_decM1 : seen (exec .decM1 (ready 1000 40)) = some ([874], 874, 39) := by decide
/-- D7: smallest undershoot. -/
theorem test_decM1_corner : seen (exec .decM1 (ready (-32768) 0)) = some ([-32768], -32768, 0) := by decide
theorem test_decM2 : seen (exec .decM2 (ready 1000 40)) = some ([790], 790, 39) := by decide
/-- D4. -/
theorem test_decM2_corner : seen (exec .decM2 (ready 32767 88)) = some ([12289], 12289, 87) := by decide
theorem test_decM3 : seen (exec .decM3 (ready 1000 40)) = some ([706], 706, 39) := by decide
/-- D5. -/
theorem test_decM3_corner : seen (exec .decM3 (ready (-32768) 88)) = some ([-32768], -32768, 87) := by decide
theorem test_decM4 : seen (exec .decM4 (ready 1000 40)) = some ([621], 621, 42) := by decide
/-- D7: one past the rail. -/
theorem test_decM4_corner : seen (exec .decM4 (ready (-32762) 0)) = some ([-32768], -32768, 2) := by decide
theorem test_decM5 : seen (exec .decM5 (ready 1000 40)) = some ([537], 537, 44) := by decide
/-- D6. -/
theorem test_decM5_corner : seen (exec .decM5 (ready (-30000) 86)) = some ([-32768], -32768, 88) := by decide
theorem test_decM6 : seen (exec .decM6 (ready 1000 40)) = some ([453], 453, 46) := by decide
/-- D1. -/
theorem test_decM6_corner : seen (exec .decM6 (ready 0 0)) = some ([-10], -10, 6) := by decide
theorem test_decM7 : seen (exec .decM7 (ready 1000 40)) = some ([369], 369, 48) := by decide
/-- D5: smallest raw. -/
theorem test_decM7_corner : seen (exec .decM7 (ready (-32768) 88)) = some ([-32768], -32768, 88) := by decide

/-! ## Steps -/

/-- P2's second command on the port. -/
theorem test_step_command :
    seen (step { State.reset with slots := [asks (.command 0b1100010111#10)] }) = some ([1, 12], 12, 8) := by decide
/-- P2: a byte-wise sequencer takes `17` first. -/
theorem test_step_byte_sequencer : seen (step (walker .bytes [0x17, 0x4C, 0xA3])) = some ([1, 12], 12, 8) := by decide
/-- P2: a nibble-wise sequencer takes the high nibble of `17` first. -/
theorem test_step_nibble_sequencer : seen (step (walker .nibbles [0x17])) = some ([1], 1, 0) := by decide
/-- R41, R60: the low nibble is that of the byte held, `7`, whatever IN has at the cursor by then (D1's row 7). -/
theorem test_step_low_nibble_is_held : seen (step (midByte 0x00)) = some ([11], 11, 8) := by decide
/-- R212: a full buffer accepts no command. -/
theorem test_step_full_buffer :
    (nextState? (step { full with slots := [asks (.command 0b1000000111#10)] })).map (·.out) = some [1, 2] := by decide
/-- R184: `rst` wins over a command. -/
theorem test_step_reset_wins :
    seen (step { full with slots := [{ rst := true, take := 0, request := .command 0b1000000111#10 }] }) =
      some ([], 0, 0) := by decide
theorem test_fetch_word_command : seen (step (State.reset.withFetchWord 16 0x207)) = some ([11], 11, 8) := by decide
theorem test_fetch_word_codeword : seen (step (State.reset.withFetchWord 8 0x7)) = some ([11], 11, 8) := by decide
theorem test_fetch_word_byte : seen (step (State.reset.withFetchWord 8 0x71)) = some ([11, 17], 17, 7) := by decide

/-! ## Streams and host context -/

/-- P2. -/
theorem test_stream_p2 :
    (decodeStream standardConfig [0x17, 0x4C, 0xA3]).samples.map BitVec.toInt = [1, 12, 30, 9, -4, 13] := by decide
/-- P5, the defect stride. -/
theorem test_stream_p5_skipping :
    (decodeStream skippingConfig [0x12, 0x34, 0x56]).samples.map BitVec.toInt = [1, 4, 12, 29] := by decide
/-- P6: the last twelve bytes, and the size fields. -/
theorem test_wav_p6 :
    (wavFile [1, 12, 30, 9, -4, 13]).toOption.map (fun f => (f.drop 44, (f.drop 4).take 4, (f.drop 40).take 4)) =
      some ([0x01, 0x00, 0x0C, 0x00, 0x1E, 0x00, 0x09, 0x00, 0xFC, 0xFF, 0x0D, 0x00],
        [0x30, 0x00, 0x00, 0x00], [0x0C, 0x00, 0x00, 0x00]) := by decide
/-- P6: the empty payload's 44-byte file. -/
theorem test_wav_empty :
    (wavFile []).toOption = some
      [0x52, 0x49, 0x46, 0x46, 0x24, 0x00, 0x00, 0x00, 0x57, 0x41, 0x56, 0x45, 0x66, 0x6D, 0x74, 0x20,
       0x10, 0x00, 0x00, 0x00, 0x01, 0x00, 0x01, 0x00, 0x80, 0x3E, 0x00, 0x00, 0x00, 0x7D, 0x00, 0x00,
       0x02, 0x00, 0x10, 0x00, 0x64, 0x61, 0x74, 0x61, 0x00, 0x00, 0x00, 0x00] := by decide
/-- S6, R160. -/
theorem test_ranges :
    [parseRange ['b', 'y', 't', 'e', 's', '=', '0', '-', '9', '9'], parseRange ['b', 'y', 't', 'e', 's', '=', '5', '0', '0', '-'],
     parseRange ['b', 'y', 't', 'e', 's', '=', '2', '0', '0', '0', '-', '3', '0', '0', '0']].map
        (fun h => (resolveRange h 1000).toOption) =
      [some ⟨0, 99, 1000⟩, some ⟨500, 999, 1000⟩, some ⟨999, 999, 1000⟩] := by decide
/-- S7, R160: the value of `Content-Range`, and a small file's response to `bytes=0-99`, clamped. -/
theorem test_content_range :
    ((resolveRange (readRangeHeader (some "bytes=0-99".toList)) 1000).toOption.map ByteRangeWindow.contentRange) =
      some "bytes 0-99/1000".toList := by decide
theorem test_range_response :
    (respondRange (some "bytes=1-99".toList) [0x17, 0x4C, 0xA3]).toOption = some
      { status := 206
        headers := [("Accept-Ranges".toList, "bytes".toList), ("Content-Range".toList, "bytes 1-2/3".toList),
          ("Content-Length".toList, "2".toList), ("Cache-Control".toList, "no-cache".toList)]
        body := [0x4C, 0xA3] } := by decide
/-- C5, C6. -/
theorem test_ranges_unmatched_and_inverted :
    rangeStatus (parseRange ['b', 'y', 't', 'e', 's', '=', '-', '5']) = 200 ∧
    (resolveRange (.range 500 (some 100)) 1000).toOption = none ∧ (resolveRange .absent 0).toOption = none := by decide

/-! ## Witnesses: for each obligation with hypotheses, a state and operands that meet them together -/

theorem witness_launched : (ready 1000 40).launched ∧ State.reset.launched := by decide
theorem witness_not_launched : State.powerOn.initialised = false := by decide
theorem witness_ResetWinsOverACoincidingRequest :
    ({ full with slots := [⟨true, 1, .command 0x207#10⟩] } : State).slots = ⟨true, 1, .command 0x207#10⟩ :: [] ∧
      (⟨true, 1, .command 0x207#10⟩ : Slot).rst = true := by decide
theorem witness_DifferenceIsFourTruncatedTerms : (8 : Codeword) &&& 7 = 0 ∧ (15 : Codeword) &&& 7 = 7 := by decide
theorem witness_PredictorSaturates_above : (ready 32761 0).launched ∧
    rawPredictor (ready 32761 0).regs.predictor.toInt (direction 4) (difference (ready 32761 0).stepSize 4) = 32768 := by decide
theorem witness_PredictorSaturates_below : (ready (-32762) 0).launched ∧
    rawPredictor (ready (-32762) 0).regs.predictor.toInt (direction 12) (difference (ready (-32762) 0).stepSize 12) = -32769 := by
  decide
theorem witness_PredictorSaturates_rails :
    rawPredictor (ready 32760 0).regs.predictor.toInt (direction 4) (difference (ready 32760 0).stepSize 4) = 32767 ∧
    rawPredictor (ready (-32761) 0).regs.predictor.toInt (direction 12) (difference (ready (-32761) 0).stepSize 12) = -32768 := by
  decide
theorem witness_PredictorSaturates_table : (ready 32767 88).launched ∧ (ready 32767 88).cfg.stepTable = standardStepTable ∧
    rawPredictor (ready 32767 88).regs.predictor.toInt (direction 7) (difference (ready 32767 88).stepSize 7) = 94203 ∧
    rawPredictor (ready (-32768) 88).regs.predictor.toInt (direction 15) (difference (ready (-32768) 88).stepSize 15) = -94204 :=
  ⟨rfl, rfl, by decide, by decide⟩
theorem witness_StepIndexSaturates_below : ((ready 0 0).regs.stepIndex.val : Int) + (ready 0 0).cfg.indexTable[3] = -1 := by decide
theorem witness_StepIndexSaturates_above : ((ready 0 81).regs.stepIndex.val : Int) + (ready 0 81).cfg.indexTable[7] = 89 := by decide
theorem witness_StepIndexSaturates_ends : ((ready 0 1).regs.stepIndex.val : Int) + (ready 0 1).cfg.indexTable[0] = 0 ∧
    ((ready 0 86).regs.stepIndex.val : Int) + (ready 0 86).cfg.indexTable[4] = 88 := by decide
theorem witness_StepIndexSaturates_table : (ready 0 88).cfg.indexTable = standardIndexTable ∧
    ((ready 0 88).regs.stepIndex.val : Int) + (ready 0 88).cfg.indexTable[7] = 96 := ⟨rfl, by decide⟩
theorem witness_DecHasTheSourcesTestableProperties_zero : (ready 0 0).launched ∧ (ready 0 0).cfg.stepTable[0] >>> 3 = 0 ∧
    (ready 0 0).cfg.indexTable[0] = -1 ∧ (ready 0 0).regs = { predictor := 0, stepIndex := 0 } := by decide
theorem witness_DecHasTheSourcesTestableProperties_sign : (ready 100 0).launched ∧ (ready 100 0).cfg.stepTable[0] >>> 3 = 0 ∧
    (ready 100 0).regs = { predictor := 100, stepIndex := 0 } ∧ (ready 100 0).cfg.indexTable = standardIndexTable :=
  ⟨rfl, by decide, by decide, rfl⟩
theorem witness_MirrorCodewordsShareDifferenceAndIndex :
    (ready 32767 88).launched ∧ (ready 32767 88).cfg.indexTable = standardIndexTable := ⟨rfl, rfl⟩
theorem witness_IndexTrajectoryDependsOnMagnitudesOnly :
    (ready 5 40).launched ∧ (ready (-7) 40).launched ∧ (ready 5 40).cfg.indexTable = standardIndexTable ∧
    (ready (-7) 40).cfg.indexTable = standardIndexTable ∧ (ready 5 40).regs.stepIndex = (ready (-7) 40).regs.stepIndex ∧
    [(1 : Codeword), 15].map (· &&& 7) = [(9 : Codeword), 7].map (· &&& 7) := ⟨rfl, rfl, rfl, rfl, by decide, by decide⟩
theorem witness_InstructionFrame : exec (.dec 5) (ready 1000 40) = .next ((ready 1000 40).decoded 5) ∧ Instr.dec 5 ≠ .init :=
  ⟨rfl, by decide⟩
theorem witness_RegistersNeverDependOnOutput : exec (.decb 0x71) (ready 0 0) = .next (((ready 0 0).decoded 7).decoded 1) := rfl
theorem witness_AcceptedCommand :
    ({ State.reset with slots := [asks (.command 0x207#10)] } : State).slots = asks (.command 0x207#10) :: [] ∧
    (asks (.command 0x207#10)).rst = false ∧ (asks (.command 0x207#10)).request = .command 0x207#10 ∧
    State.reset.out.length - (State.reset.handed + min 0 (State.reset.out.length - State.reset.handed)) + 2 ≤
      State.reset.cfg.bufferDepth := by decide
/-- A state that meets what the statements about sequencer steps assume of `s`, `p`, `rest` and `b`. -/
abbrev StandsOn (s : State) (unit : StreamUnit) (p : Slot) (rest : List Slot) (b : Byte) : Prop :=
  s.slots = p :: rest ∧ p.rst = false ∧ p.request = .idle ∧
  s.out.length - (s.handed + min p.take (s.out.length - s.handed)) + 2 ≤ s.cfg.bufferDepth ∧
  s.seq.walking = some unit ∧ s.seq.input[s.seq.cursor]? = some b

theorem witness_ByteSequencer :
    StandsOn { walker .bytes [0x17] with slots := [asks .idle] } .bytes (asks .idle) [] 0x17 := by decide
theorem witness_NibbleSequencer_hi :
    StandsOn { walker .nibbles [0x17] with slots := [asks .idle] } .nibbles (asks .idle) [] 0x17 ∧
    (walker .nibbles [0x17]).seq.phase = .hi := by decide
theorem witness_NibbleSequencer_lo :
    StandsOn { midByte 0x17 with slots := [asks .idle] } .nibbles (asks .idle) [] 0x17 ∧
    (midByte 0x17).seq.phase = .lo 0x17 ∧ (midByte 0x17).seq.cursor < (midByte 0x17).seq.input.length := by decide
theorem witness_StreamStart :
    let s : State := { State.powerOn with slots := [asks (.stream .bytes [0x17])] }
    let p : Slot := asks (.stream .bytes [0x17])
    s.slots = p :: [] ∧ p.rst = false ∧ p.request = .stream .bytes [0x17] ∧
      s.out.length - (s.handed + min p.take (s.out.length - s.handed)) + 2 ≤ s.cfg.bufferDepth := by decide
theorem witness_FullBuffer :
    ({ full with slots := [asks (.command 0x207#10)] } : State).slots = asks (.command 0x207#10) :: [] ∧
    (asks (.command 0x207#10)).rst = false ∧
    full.cfg.bufferDepth < full.out.length - (full.handed + min 0 (full.out.length - full.handed)) + 2 := by decide
theorem witness_IdleBlock_no_sequencer :
    let s : State := { State.reset with slots := [asks .idle] }
    s.slots = asks .idle :: [] ∧ (asks .idle).rst = false ∧ (asks .idle).request = .idle ∧ s.seq.walking = none := by decide
theorem witness_IdleBlock_run_over :
    let s : State := { walker .bytes [] with slots := [asks .idle] }
    s.slots = asks .idle :: [] ∧ (asks .idle).rst = false ∧ (asks .idle).request = .idle ∧
      s.seq.input.length ≤ s.seq.cursor := by decide
theorem witness_EndOfScript : full.slots = [] := by decide
theorem witness_PlacedWord_command : tableWord 16 0x317 = some (.cmd 0x317#10) ∧ 2 ≤ State.reset.cfg.bufferDepth := by decide
theorem witness_PlacedWord_byte : tableWord 8 0x10 = some (.packed 0x10#8) ∧ tableWord 8 0xF = some (.cw 0xF#4) := by decide
theorem witness_StateInvariant : full.Inv ∧
    (State.emit { midByte 0x17 with regs := { predictor := 1, stepIndex := 0 } } 1).Inv := by decide
theorem witness_StateInvariant_step : step (ready 0 0) = .next (ready 0 0) ∧ (ready 0 0).Inv := ⟨rfl, by decide⟩
theorem witness_OutputOnlyGrows : full.Inv ∧ full.headSlot.rst = false ∧
    step full = .next { full with handed := 2 } := ⟨by decide, by decide, rfl⟩
theorem witness_SamplesLeaveInOrder : full.Inv ∧ full.pending = [1, 2] ∧ full.outValid = true := by decide
theorem witness_StreamDecoded : (walker .bytes [0x17]).Inv ∧ (walker .bytes [0x17]).portFree ∧
    (walker .bytes [0x17]).tracksDecode ∧
    step (walker .bytes [0x17]) = .next ((pastEnd.decoded 1).decoded 7) :=
  ⟨by decide, by decide, fun _ _ => by decide, rfl⟩
theorem witness_FinishedRun :
    let done := (pastEnd.decoded 1).decoded 7
    done.Inv ∧ done.launched ∧ done.seq.walking.isSome = true ∧ done.tracksDecode ∧
      done.seq.input.length ≤ done.seq.cursor :=
  ⟨by decide, by decide, by decide, fun _ _ => by decide, by decide⟩
theorem witness_BytesAlreadyRead :
    (midByte 0x17).headSlot.rst = false ∧ (midByte 0x17).headSlot.request = .idle ∧
    [(0x00 : Byte)].length = (midByte 0x17).seq.input.length ∧
    (∀ k : Nat, (midByte 0x17).seq.firstUnread ≤ k → [(0x00 : Byte)][k]? = (midByte 0x17).seq.input[k]?) ∧
    (nextState? (step (midByte 0x17))).isSome = true :=
  ⟨by decide, by decide, by decide, fun k h => match k, h with | k + 1, _ => rfl, by decide⟩
theorem witness_BytesAlreadyRead_reads :
    (walker .bytes [0x17]).seq.firstUnread = 0 ∧ step (walker .bytes [0x17]) = .next ((pastEnd.decoded 1).decoded 7) ∧
    ((pastEnd.decoded 1).decoded 7).out ≠ (walker .bytes [0x17]).out ∧ (walker .nibbles [0x17]).seq.phase = .hi ∧
    ((nextState? (step (walker .nibbles [0x17]))).map (·.out)) ≠ some (walker .nibbles [0x17]).out :=
  ⟨by decide, rfl, by decide, by decide, by decide⟩
theorem witness_SequencerRuns_bytes : (walker .bytes [0x17]).launched ∧ (walker .bytes [0x17]).slots = [] ∧
    (walker .bytes [0x17]).seq.walking = some .bytes ∧ (walker .bytes [0x17]).seq.cursor = 0 ∧
    (walker .bytes [0x17]).seq.phase = .hi ∧ (walker .bytes [0x17]).regs = .initial ∧
    (walker .bytes [0x17]).handed ≤ (walker .bytes [0x17]).out.length ∧ 2 ≤ (walker .bytes [0x17]).cfg.bufferDepth := by decide
theorem witness_SequencerRuns_nibbles : (walker .nibbles [0x17]).launched ∧ (walker .nibbles [0x17]).slots = [] ∧
    (walker .nibbles [0x17]).seq.walking = some .nibbles ∧ (walker .nibbles [0x17]).seq.cursor = 0 ∧
    (walker .nibbles [0x17]).seq.phase = .hi ∧ (walker .nibbles [0x17]).regs = .initial ∧
    2 ≤ (walker .nibbles [0x17]).cfg.bufferDepth := by decide
/-- P2's command words. -/
theorem witness_CommandPort :
    let words : List CommandWord := [0b0100000000#10, 0b1100010111#10, 0b1101001100#10, 0b1110100011#10]
    let s : State := { State.reset with slots := words.map commandSlot }
    (decsProgram s.cfg.byteStride [0x17, 0x4C, 0xA3]).map encode = words.map .cmd ∧ s.slots = words.map commandSlot ∧
      s.handed ≤ s.out.length ∧ s.cmdReady = true := by decide
theorem witness_strides : standardConfig.byteStride = .perByte ∧ skippingConfig.byteStride = .skipping := by decide
theorem witness_SkippingStrideIgnoresOddBytes :
    [(0x12 : Byte), 0x34, 0x56].length = [(0x12 : Byte), 0x99, 0x56].length ∧
    ∀ k : Nat, [(0x12 : Byte), 0x34, 0x56][2 * k]? = [(0x12 : Byte), 0x99, 0x56][2 * k]? :=
  ⟨rfl, fun k => match k with | 0 => rfl | 1 => rfl | k + 2 => by simp [Nat.mul_add]⟩
theorem witness_StreamsForget : (ready (-1200) 57).cfg = State.powerOn.cfg ∧ (ready (-1200) 57) ≠ State.powerOn := ⟨rfl, by decide⟩
theorem witness_WavFile : 36 + 2 * ([1, 12, 30, 9, -4, 13] : List Sample).length < 2 ^ 32 ∧
    ([1, 12, 30, 9, -4, 13] : List Sample)[5]? = some 13 := by decide
theorem witness_WavFile_largest : 36 + 2 * (List.replicate 2147483629 (0 : Sample)).length < 2 ^ 32 := by
  rw [List.length_replicate]; decide
theorem witness_WavFile_too_large : 2 ^ 32 ≤ 36 + 2 * (List.replicate 2147483630 (0 : Sample)).length := by
  rw [List.length_replicate]; decide
theorem witness_Ranges : (1000 : FileOffset) ≠ 0 ∧ resolveRange (.range 0 (some 99)) 1000 = .ok ⟨0, 99, 1000⟩ ∧
    min 2000 ((1000 : FileOffset).toNat - 1) ≤ min 3000 ((1000 : FileOffset).toNat - 1) ∧
    min 100 ((1000 : FileOffset).toNat - 1) < min 500 ((1000 : FileOffset).toNat - 1) := by decide
theorem witness_RangeHeaders : ['0'] ≠ [] ∧ (∀ c ∈ ['0'], '0' ≤ c ∧ c ≤ '9') ∧ ['9', '9'] ≠ [] ∧
    (∀ c ∈ ['9', '9'], '0' ≤ c ∧ c ≤ '9') := by simp
theorem witness_RangeHeaders_unmatched (a b : List Char) : ['b', 'i', 't', 's'] ≠ "bytes=".toList ++ a ++ ['-'] ∧
    ['b', 'i', 't', 's'] ≠ "bytes=".toList ++ a ++ ['-'] ++ b := by simp
theorem witness_RangeResponses :
    [(0x17 : Byte), 0x4C, 0xA3].length < 2 ^ 64 ∧
    resolveRange (readRangeHeader (some "bytes=1-".toList)) (BitVec.ofNat 64 [(0x17 : Byte), 0x4C, 0xA3].length) =
      .ok ⟨1, 2, 3⟩ ∧ readRangeHeader none = .absent := by decide
theorem witness_RangeResponses_too_large : ∃ file : List Byte, 18446744073709551616 ≤ file.length :=
  ⟨List.replicate 18446744073709551616 0, Nat.le_of_eq List.length_replicate.symm⟩

end Sys2Proof.Tests
end

/-! The state family (10_state.md): its obligations, from the laws of the slot, the sequencer and the invariant. -/

namespace Sys2Proof.Machine

/-! ## A step on a written-out next slot -/

/-- The next slot of a script that has one. -/
theorem State.headSlot_cons {s : State} {p : Slot} {rest : List Slot} (h : s.slots = p :: rest) : s.headSlot = p := by
  simp [State.headSlot, h]

/-- In a slot with `rst` the block is reset, whatever else the slot holds (R184, R200). -/
theorem step_rst {s : State} (h : s.headSlot.rst = true) : step s = .next s.popSlot.hardwareReset := by
  simp [step, runSlot, h]

/-- R212, log 4: after the host took its samples the block has room for two more. -/
theorem State.cmdReady_handOver {s : State} {n : Nat}
    (h : s.out.length - (s.handed + min n (s.out.length - s.handed)) + 2 ≤ s.cfg.bufferDepth) :
    (s.popSlot.handOver n).cmdReady = true :=
  decide_eq_true h

/-- A turn of the sequencer runs the unit issued, with the sequencer moved on (R136). -/
theorem sequencerTurn_of_issue {s : State} {e : Encoded} {q : Sequencer} (h : s.issue = some (e, q)) :
    sequencerTurn s = exec (decode e) (s.setSeq q) := by
  simp [sequencerTurn, h]

/-- What is issued does not depend on the host's script or on what the host has taken. -/
@[simp] theorem State.handOver_popSlot_issue (s : State) (n : Nat) : (s.popSlot.handOver n).issue = s.issue := rfl

/-- When the host asks a ready block for nothing, the step runs the unit the sequencer issues (logs 5, 7). -/
theorem step_idle_of_issue {s : State} {p : Slot} {rest : List Slot} {e : Encoded} {q : Sequencer}
    (hs : s.slots = p :: rest) (hr : p.rst = false) (hi : p.request = .idle)
    (hroom : s.out.length - (s.handed + min p.take (s.out.length - s.handed)) + 2 ≤ s.cfg.bufferDepth)
    (hq : s.issue = some (e, q)) :
    step s = exec (decode e)
      { s with slots := rest, handed := s.handed + min p.take (s.out.length - s.handed), seq := q } := by
  have hp : s.headSlot = p := State.headSlot_cons hs
  have hstate : (s.popSlot.handOver p.take).setSeq q =
      { s with slots := rest, handed := s.handed + min p.take (s.out.length - s.handed), seq := q } := by
    simp [State.popSlot, State.handOver, State.setSeq, hs]
  calc step s
      = accept p.request (s.popSlot.handOver p.take) := by
        rw [step_accept (by rw [hp, hr]) (by rw [hp]; exact State.cmdReady_handOver hroom), hp]
    _ = sequencerTurn (s.popSlot.handOver p.take) := by rw [hi, accept]
    _ = exec (decode e) ((s.popSlot.handOver p.take).setSeq q) := sequencerTurn_of_issue hq
    _ = _ := by rw [hstate]

/-- R24, R41: in phase `hi` a nibble-wise sequencer issues the high nibble of the byte at the cursor and holds that byte. -/
theorem State.issue_nibbles_hi {s : State} {b : Byte} (hw : s.seq.walking = some .nibbles) (hp : s.seq.phase = .hi)
    (hb : s.seq.input[s.seq.cursor]? = some b) :
    s.issue = some (.cw (highNibble b), { s.seq with phase := .lo b }) := by
  simp [State.issue, State.readIn, hw, hp, hb]

/-- R24, R41: in phase `lo` it issues the low nibble of the byte held and moves on by a stride. -/
theorem State.issue_nibbles_lo {s : State} {b : Byte} (hw : s.seq.walking = some .nibbles) (hp : s.seq.phase = .lo b)
    (hlt : s.seq.cursor < s.seq.input.length) :
    s.issue = some (.cw (lowNibble b), { s.seq with phase := .hi, cursor := s.seq.cursor + s.cfg.byteStride.bytes }) := by
  simp [State.issue, hw, hp, hlt]

/-! ## What requests and steps keep of the invariant -/

/-- A turn of the sequencer with room for two samples keeps the invariant (R136, R212). -/
theorem sequencerTurn_inv {s t : State} (hc : s.cmdReady = true) (h : s.Inv) (ht : sequencerTurn s = .next t) : t.Inv := by
  unfold sequencerTurn at ht
  split at ht
  · next e q hq => exact exec_inv (s := s.setSeq q) hc (State.issue_inv hq h) ht
  · cases ht; exact h

/-- Whatever request a ready block accepts, the invariant is kept. -/
theorem accept_inv {r : Request} {s t : State} (hc : s.cmdReady = true) (h : s.Inv) (ht : accept r s = .next t) : t.Inv := by
  cases r with
  | idle => exact sequencerTurn_inv hc h ht
  | command w => exact exec_inv hc h ht
  | stream unit bytes =>
    obtain ⟨hhanded, hheld, -⟩ := h
    rw [accept, exec_init] at ht
    cases ht
    exact State.startStream_inv (s := s.loadStream unit bytes) hhanded hheld

/-- Settles O36, by the three things a step can do: a reset, the host's taking alone, a request accepted after it. -/
theorem everyStepKeepsTheStateInvariant : Obligations.EveryStepKeepsTheStateInvariant := by
  intro s t h ht
  have htaken : (s.popSlot.handOver s.headSlot.take).Inv := State.handOver_inv _ (State.popSlot_inv h)
  rcases step_next_cases ht with ⟨-, rfl⟩ | ⟨-, -, rfl⟩ | ⟨-, hready, hacc⟩
  · exact State.hardwareReset_inv _
  · exact htaken
  · exact accept_inv hready htaken hacc

/-! ## The registers read nothing but the tables and themselves -/

/-- Only `NOP` and `INIT` decode nothing (R130, R131). -/
theorem codewordsOf_eq_nil_iff (i : Instr) : codewordsOf i = [] ↔ i = .nop ∨ i = .init := by
  cases i <;> simp [codewordsOf]

/-- Two states with the same tables and registers have the same registers after the same codewords (R31). -/
theorem State.decodedAll_regs_congr {s s' : State} (hcfg : s'.cfg = s.cfg) (hregs : s'.regs = s.regs)
    (codes : List Codeword) : (s'.decodedAll codes).regs = (s.decodedAll codes).regs := by
  rw [(s'.decodedAll_emitted codes).2, (s.decodedAll_emitted codes).2, hcfg, hregs]

/-- An instruction that completes does so from every state with the same tables, registers and launch bit, and leaves the
same registers (R31). -/
theorem exec_regs_congr {i : Instr} {s s' t : State} (hcfg : s'.cfg = s.cfg) (hregs : s'.regs = s.regs)
    (hinit : s'.initialised = s.initialised) (h : exec i s = .next t) :
    ∃ t' : State, exec i s' = .next t' ∧ t'.regs = t.regs := by
  rcases exec_next_cases h with ⟨rfl, rfl⟩ | ⟨hi, hl, rfl⟩
  · exact ⟨s'.startStream, rfl, rfl⟩
  · have hrun : exec i s' = .next (s'.decodedAll (codewordsOf i)) := by
      by_cases hc : codewordsOf i = []
      · obtain rfl := ((codewordsOf_eq_nil_iff i).mp hc).resolve_right hi
        rfl
      · exact exec_launched hi (hinit.trans (hl hc))
    exact ⟨_, hrun, State.decodedAll_regs_congr hcfg hregs _⟩

/-- Settles O26: the other state differs in no field that an instruction's registers depend on. -/
theorem registersNeverDependOnOutput : Obligations.RegistersNeverDependOnOutput := by
  intro i s t out streamStart handed seq slots h
  exact exec_regs_congr (s := s) rfl rfl rfl h

/-! ## Reset and the nibble-wise sequencer -/

/-- The state after reset is the hardware reset of the powered-on block (R32, R200). -/
theorem State.powerOn_hardwareReset : State.powerOn.hardwareReset = State.reset := rfl

/-- Settles O1: the fields of the reset state, and the first slot with `rst`. -/
theorem resetGivesTheInitialStreamState : Obligations.ResetGivesTheInitialStreamState := by
  refine ⟨by decide, rfl, rfl, rfl, rfl, rfl, rfl, by decide, ?_⟩
  exact step_rst rfl

/-- Settles O29: the codeword issued in each phase, run in an idle slot. -/
theorem nibbleSequencerRunsHighThenLow : Obligations.NibbleSequencerRunsHighThenLow := by
  intro s p rest b hs hr hi hroom hw
  rw [← highNibble_eq, ← lowNibble_eq]
  constructor
  · intro hp hb
    exact step_idle_of_issue hs hr hi hroom (State.issue_nibbles_hi hw hp hb)
  · intro hp hlt
    exact step_idle_of_issue hs hr hi hroom (State.issue_nibbles_lo hw hp hlt)

/-- Settles O37: the reset state is a hardware reset's, which has the invariant. -/
theorem resetHasTheStateInvariant : Obligations.ResetHasTheStateInvariant := by
  unfold Obligations.ResetHasTheStateInvariant
  rw [← State.powerOn_hardwareReset]
  exact State.hardwareReset_inv _

end Sys2Proof.Machine

/-! The memory family (20_memory.md): its obligations, from what each instruction leaves unchanged, where a turn of the sequencer
stands in IN afterwards, and the bytes of a serialised sample. -/

namespace Sys2Proof.Machine

/-! ## Frames -/

/-- Settles O25, by the two things an instruction can do: start a stream, or decode its codewords. -/
theorem instructionFrame : Obligations.InstructionFrame := by
  intro i s t h
  rcases exec_next_cases h with ⟨rfl, rfl⟩ | ⟨hi, -, rfl⟩
  · exact ⟨rfl, rfl, rfl, rfl, rfl, fun k => rfl, fun hne => absurd rfl hne, [], by simp [codewordsOf]⟩
  · obtain ⟨hcfg, hinit, hstart, hhanded, hseq, hslots⟩ := s.decodedAll_frame (codewordsOf i)
    obtain ⟨new, hlen, hout⟩ := s.decodedAll_out (codewordsOf i)
    refine ⟨hcfg, hslots, hhanded, by rw [hseq], by rw [hseq], fun k => ?_, fun _ => ⟨hseq, hstart, hinit⟩, new, hout, hlen⟩
    simp [State.readIn, hseq]

/-- From `s` to `t` the tables and what the host has taken are the same, and OUT has at most two samples more (R42, R55, R61). -/
abbrev State.EmitsUpToTwo (s t : State) : Prop :=
  t.cfg = s.cfg ∧ t.handed = s.handed ∧ ∃ new : List Sample, t.out = s.out ++ new ∧ new.length ≤ 2

/-- One instruction emits at most the two samples of a byte (R55). -/
theorem exec_emitsUpToTwo {i : Instr} {s t : State} (h : exec i s = .next t) : s.EmitsUpToTwo t := by
  obtain ⟨hcfg, -, hhanded, -, -, -, -, new, hout, hlen⟩ := instructionFrame i s t h
  exact ⟨hcfg, hhanded, new, hout, hlen ▸ codewordsOf_length_le i⟩

/-- Whatever request is accepted, it runs at most one instruction. -/
theorem accept_emitsUpToTwo {r : Request} {s t : State} (h : accept r s = .next t) : s.EmitsUpToTwo t := by
  cases r with
  | command w => exact exec_emitsUpToTwo h
  | stream unit bytes => exact exec_emitsUpToTwo (i := .init) (s := s.loadStream unit bytes) h
  | idle =>
    cases hq : s.issue with
    | none =>
      simp only [accept, sequencerTurn, hq] at h
      cases h
      exact ⟨rfl, rfl, [], by simp⟩
    | some issued =>
      obtain ⟨e, q⟩ := issued
      rw [accept, sequencerTurn_of_issue hq] at h
      exact exec_emitsUpToTwo (s := s.setSeq q) h

/-- The host takes no more samples than are there (R212). -/
theorem State.handOver_handed_le {s : State} (n : Nat) (h : s.handed ≤ s.out.length) :
    s.handed ≤ (s.handOver n).handed ∧ (s.handOver n).handed ≤ s.out.length := by
  rw [State.handOver_handed]; omega

/-- Settles O38: a reset keeps the tables; otherwise the host takes held samples and at most one request is accepted. -/
theorem outputOnlyGrowsAndTablesStay : Obligations.OutputOnlyGrowsAndTablesStay := by
  intro s t hs ht
  obtain ⟨hhanded, -⟩ := hs
  obtain ⟨hmore, hbound⟩ := State.handOver_handed_le (s := s.popSlot) s.headSlot.take hhanded
  rcases step_next_cases ht with ⟨hr, rfl⟩ | ⟨-, -, rfl⟩ | ⟨-, -, hacc⟩
  · exact ⟨rfl, fun hr' => by simp [hr] at hr'⟩
  · exact ⟨rfl, fun _ => ⟨⟨[], by simp⟩, hmore, hbound⟩⟩
  · obtain ⟨hcfg, htaken, new, hout, hlen⟩ := accept_emitsUpToTwo hacc
    refine ⟨hcfg, fun _ => ⟨⟨new, hout, hlen⟩, htaken ▸ hmore, htaken ▸ hbound.trans ?_⟩⟩
    simp [hout]

/-! ## What a turn of the sequencer reads of IN -/

/-- `INIT` apart, an instruction decodes its codewords wherever the launch premise holds or there are none (R130, R203). -/
theorem exec_eq_decodedAll {i : Instr} {s : State} (hi : i ≠ .init) (hl : codewordsOf i ≠ [] → s.initialised = true) :
    exec i s = .next (s.decodedAll (codewordsOf i)) := by
  by_cases hc : codewordsOf i = []
  · obtain rfl := ((codewordsOf_eq_nil_iff i).mp hc).resolve_right hi
    rfl
  · exact exec_launched hi (hl hc)

/-- Decoding codewords neither reads nor moves the sequencer. -/
theorem State.decodedAll_setSeq (s : State) (q : Sequencer) (codes : List Codeword) :
    (s.setSeq q).decodedAll codes = (s.decodedAll codes).setSeq q := by
  induction codes generalizing s with
  | nil => rfl
  | cons c codes ih => exact ih (s.decoded c)

/-- Everything a turn of the sequencer can do: nothing, or decode the unit issued and move on (R136, R140). -/
theorem sequencerTurn_next_cases {s t : State} (h : sequencerTurn s = .next t) :
    (s.issue = none ∧ t = s) ∨
      ∃ e q, s.issue = some (e, q) ∧ (codewordsOf (decode e) ≠ [] → s.initialised = true) ∧
        t = (s.decodedAll (codewordsOf (decode e))).setSeq q := by
  cases hq : s.issue with
  | none =>
    simp only [sequencerTurn, hq] at h
    cases h
    exact .inl ⟨rfl, rfl⟩
  | some issued =>
    obtain ⟨e, q⟩ := issued
    rw [sequencerTurn_of_issue hq] at h
    rcases exec_next_cases h with ⟨hinit, -⟩ | ⟨-, hl, rfl⟩
    · exact absurd hinit (State.issue_frame hq).1
    · exact .inr ⟨e, q, rfl, hl, s.decodedAll_setSeq q _⟩

/-- The state with other bytes in IN. -/
def State.withInput (s : State) (input : List Byte) : State :=
  s.setSeq { s.seq with input := input }

@[simp] theorem State.withInput_seq (s : State) (input : List Byte) :
    (s.withInput input).seq = { s.seq with input := input } := rfl
@[simp] theorem State.withInput_cfg (s : State) (input : List Byte) : (s.withInput input).cfg = s.cfg := rfl

/-- IN can be `input` instead, as far as the sequencer has yet to read it (R41). -/
structure Sequencer.UnreadAgree (q : Sequencer) (input : List Byte) : Prop where
  length_eq : input.length = q.input.length
  unread_eq : ∀ k : Nat, q.firstUnread ≤ k → input[k]? = q.input[k]?

/-- The byte at the cursor is unread unless it is held (R41, log 23). -/
theorem Sequencer.firstUnread_eq_cursor {q : Sequencer} (h : q.walking = some .bytes ∨ q.phase = .hi) :
    q.firstUnread = q.cursor := by
  unfold Sequencer.firstUnread
  split
  · next hw hp => simp [hw, hp] at h
  · rfl

/-- While a byte is held, the byte at the cursor has been read (R41, log 23). -/
theorem Sequencer.firstUnread_held {q : Sequencer} {b : Byte} (hw : q.walking = some .nibbles) (hp : q.phase = .lo b) :
    q.firstUnread = q.cursor + 1 := by
  simp [Sequencer.firstUnread, hw, hp]

/-- What the sequencer issues, and where it moves on to, does not depend on the bytes already read (R41, R60). -/
theorem State.issue_withInput {s : State} {input : List Byte} (h : s.seq.UnreadAgree input) :
    (s.withInput input).issue = s.issue.map fun issued => (issued.1, { issued.2 with input := input }) := by
  obtain ⟨hlen, hunread⟩ := h
  have hbyte (hc : s.seq.walking = some .bytes ∨ s.seq.phase = .hi) :
      (s.withInput input).readIn s.seq.cursor = s.readIn s.seq.cursor :=
    hunread _ (Sequencer.firstUnread_eq_cursor hc).le
  cases hw : s.seq.walking with
  | none => simp [State.issue, hw]
  | some unit =>
    cases unit with
    | bytes => simp [State.issue, hw, hbyte (.inl hw), Function.comp_def]
    | nibbles =>
      cases hp : s.seq.phase with
      | hi => simp [State.issue, hw, hp, hbyte (.inr hp), Function.comp_def]
      | lo b => by_cases hlt : s.seq.cursor < s.seq.input.length <;> simp [State.issue, hw, hp, hlen, hlt]

/-- Every stride moves the cursor on (R136). -/
theorem stride_bytes_pos (stride : Stride) : 0 < stride.bytes := by
  cases stride <;> decide

/-- Issuing a unit never moves the first unread index back, and moves it on when the unit was read from IN (R41). -/
theorem State.issue_firstUnread {s : State} {e : Encoded} {q : Sequencer} (h : s.issue = some (e, q)) :
    s.seq.firstUnread ≤ q.firstUnread ∧
      (s.seq.walking = some .bytes ∨ s.seq.phase = .hi → s.seq.firstUnread < q.firstUnread) := by
  have hstride := stride_bytes_pos s.cfg.byteStride
  obtain ⟨hw, b, -, -, rfl⟩ | ⟨hw, hp, b, -, -, rfl⟩ | ⟨hw, -, b, hp, -, rfl⟩ := State.issue_cases h
  · simp [Sequencer.firstUnread_eq_cursor, hw, hstride]
  · simp [Sequencer.firstUnread_eq_cursor, Sequencer.firstUnread_held, hw, hp]
  · simp [Sequencer.firstUnread_eq_cursor, Sequencer.firstUnread_held hw hp, hw, hp]
    omega

/-- A turn of the sequencer has the same effect whatever stands in IN where it has already read (R60). -/
theorem sequencerTurn_withInput {s t : State} {input : List Byte} (hread : s.seq.UnreadAgree input)
    (h : sequencerTurn s = .next t) : sequencerTurn (s.withInput input) = .next (t.withInput input) := by
  rcases sequencerTurn_next_cases h with ⟨hq, rfl⟩ | ⟨e, q, hq, hl, rfl⟩
  · simp [sequencerTurn, State.issue_withInput hread, hq]
  · have hissue : (s.withInput input).issue = some (e, { q with input := input }) := by
      rw [State.issue_withInput hread, hq, Option.map_some]
    rw [sequencerTurn_of_issue hissue,
      exec_eq_decodedAll (s := (s.withInput input).setSeq { q with input := input }) (State.issue_frame hq).1 hl]
    exact congrArg _ (s.decodedAll_setSeq _ _)

/-- A turn of the sequencer never moves the first unread index back, and moves it on when a unit read from IN is decoded. -/
theorem sequencerTurn_firstUnread {s t : State} (h : sequencerTurn s = .next t) :
    s.seq.firstUnread ≤ t.seq.firstUnread ∧
      (s.seq.walking = some .bytes ∨ s.seq.phase = .hi → t.out ≠ s.out → s.seq.firstUnread < t.seq.firstUnread) := by
  rcases sequencerTurn_next_cases h with ⟨-, rfl⟩ | ⟨e, q, hq, -, rfl⟩
  · exact ⟨le_rfl, fun _ hout => absurd rfl hout⟩
  · obtain ⟨hle, hlt⟩ := State.issue_firstUnread hq
    exact ⟨hle, fun hread _ => hlt hread⟩

/-- In a slot without `rst` a block that is not ready only lets the host take its samples (R212). -/
theorem step_unready {s : State} (hr : s.headSlot.rst = false)
    (hc : (s.popSlot.handOver s.headSlot.take).cmdReady = false) :
    step s = .next (s.popSlot.handOver s.headSlot.take) := by
  simp [step, runSlot, hr, hc]

/-- Settles O53: in such a slot the block is not ready, or takes a turn of the sequencer. -/
theorem bytesAlreadyReadHaveNoEffect : Obligations.BytesAlreadyReadHaveNoEffect := by
  intro s t input hr hi hlen hunread ht
  have hread : s.seq.UnreadAgree input := ⟨hlen, hunread⟩
  rcases step_next_cases ht with ⟨hr', -⟩ | ⟨-, hready, rfl⟩ | ⟨-, hready, hacc⟩
  · simp [hr] at hr'
  · exact ⟨step_unready (s := s.withInput input) hr hready, le_rfl,
      fun _ hout => absurd rfl hout, fun _ _ hout => absurd rfl hout⟩
  · rw [hi] at hacc
    obtain ⟨hle, hlt⟩ := sequencerTurn_firstUnread hacc
    refine ⟨?_, hle, fun hw => hlt (.inl hw), fun _ hp => hlt (.inr hp)⟩
    calc step (s.withInput input)
        = accept s.headSlot.request ((s.popSlot.handOver s.headSlot.take).withInput input) := step_accept hr hready
      _ = sequencerTurn ((s.popSlot.handOver s.headSlot.take).withInput input) := by rw [hi, accept]
      _ = .next (t.withInput input) := sequencerTurn_withInput hread hacc

/-! ## The default tables -/

/-- R46: `StepTable` rises strictly, neighbour by neighbour and so between any two entries. -/
theorem standardSteps_pairwise : standardSteps.Pairwise (· < ·) :=
  List.isChain_iff_pairwise.mp (by simp [standardSteps])

/-- Settles O3: each fact is one of the two printed tables (R46, R47), evaluated. -/
theorem standardTablesAreAsTheSpecFixes : Obligations.StandardTablesAreAsTheSpecFixes := by
  exact ⟨by decide, rfl, rfl, standardSteps_pairwise, by decide⟩

/-! ## The bytes of samples and of the WAV header -/

/-- R83: a sample's pattern as a number is its value modulo `2 ^ 16`. -/
theorem sample_toInt_emod (v : Sample) : v.toInt % 65536 = (v.toNat : Int) := by
  have hlt := v.isLt
  rw [BitVec.toInt_eq_toNat_cond]
  split <;> omega

/-- Settles O50: low and high byte of the pattern, which is the value modulo `2 ^ 16`. -/
theorem samplesSerialiseLowByteFirst : Obligations.SamplesSerialiseLowByteFirst := by
  intro v
  have hv := sample_toInt_emod v
  have hlt := v.isLt
  refine ⟨v.setWidth 8, (v >>> 8).setWidth 8, rfl, ?_, ?_⟩
  · rw [BitVec.toNat_setWidth]
    omega
  · rw [BitVec.toNat_setWidth, BitVec.toNat_ushiftRight, Nat.shiftRight_eq_div_pow]
    omega

/-- The two bytes of each sample (R52). -/
theorem sampleBytes_length (v : Sample) : (sampleBytes v).length = 2 := rfl

/-- Samples serialise to two bytes each (R154). -/
theorem flatMap_sampleBytes_length (samples : List Sample) :
    (samples.flatMap sampleBytes).length = 2 * samples.length := by
  simp [List.length_flatMap, sampleBytes_length, Nat.mul_comm]

/-- Sample `j` serialises to bytes `2j` and `2j + 1` (R154). -/
theorem flatMap_sampleBytes_getElem? {samples : List Sample} {j : Nat} {v : Sample} (h : samples[j]? = some v)
    (i : Fin 2) : (samples.flatMap sampleBytes)[2 * j + i.val]? = (sampleBytes v)[i.val]? := by
  induction samples generalizing j with
  | nil => simp at h
  | cons w samples ih =>
    cases j with
    | zero =>
      obtain rfl : w = v := by simpa using h
      rw [List.flatMap_cons, List.getElem?_append_left (by rw [sampleBytes_length]; omega)]
      simp
    | succ j =>
      rw [List.flatMap_cons, List.getElem?_append_right (by rw [sampleBytes_length]; omega), ← ih (by simpa using h)]
      congr 1
      rw [sampleBytes_length]
      omega

/-- Byte `k` of a number written little-endian (R155). -/
def littleEndianByte (v k : Nat) : Byte :=
  BitVec.ofNat 8 (v / 256 ^ k)

@[simp] theorem littleEndianByte_toNat (v k : Nat) : (littleEndianByte v k).toNat = v / 256 ^ k % 256 :=
  BitVec.toNat_ofNat ..

/-- A number in four bytes, least significant first (R155). -/
theorem littleEndian_four (v : Nat) :
    littleEndian 4 v = [littleEndianByte v 0, littleEndianByte v 1, littleEndianByte v 2, littleEndianByte v 3] := by
  simp [littleEndian, littleEndianByte, Nat.div_div_eq_div_mul]

/-- R155's hex column: every byte of the header, the two size fields apart, is fixed. -/
theorem wavHeader_eq (dataBytes : Nat) :
    wavHeader dataBytes =
      [0x52, 0x49, 0x46, 0x46] ++ littleEndian 4 (36 + dataBytes) ++
        [0x57, 0x41, 0x56, 0x45, 0x66, 0x6D, 0x74, 0x20, 0x10, 0x00, 0x00, 0x00, 0x01, 0x00, 0x01, 0x00,
         0x80, 0x3E, 0x00, 0x00, 0x00, 0x7D, 0x00, 0x00, 0x02, 0x00, 0x10, 0x00, 0x64, 0x61, 0x74, 0x61] ++
        littleEndian 4 dataBytes := by
  simp [wavHeader, littleEndian]

/-- The header has 44 bytes (R155). -/
theorem wavHeader_length (dataBytes : Nat) : (wavHeader dataBytes).length = 44 := rfl

/-- Settles O51: the header written out, then each sample at its place behind the 44 bytes; the size check decides. -/
theorem wavFileHasTheFixedHeader : Obligations.WavFileHasTheFixedHeader := by
  intro samples
  constructor
  · intro hfits
    refine ⟨wavHeader (samples.length * 2) ++ samples.flatMap sampleBytes,
      fun k => littleEndianByte (36 + 2 * samples.length) k, fun k => littleEndianByte (2 * samples.length) k,
      ?_, ?_, ?_, ?_, ?_⟩
    · exact if_pos (by omega)
    · rw [List.length_append, wavHeader_length, flatMap_sampleBytes_length]
    · rw [List.take_left' (wavHeader_length _), wavHeader_eq, littleEndian_four, littleEndian_four, Nat.mul_comm]
      rfl
    · exact fun k => ⟨littleEndianByte_toNat .., littleEndianByte_toNat ..⟩
    · intro j v hv
      obtain ⟨low, high, hbytes, hlow, hhigh⟩ := samplesSerialiseLowByteFirst v
      have hfile (i : Fin 2) :
          (wavHeader (samples.length * 2) ++ samples.flatMap sampleBytes)[44 + (2 * j + i.val)]? = [low, high][i.val]? := by
        rw [List.getElem?_append_right (by rw [wavHeader_length]; omega), wavHeader_length, Nat.add_sub_cancel_left,
          flatMap_sampleBytes_getElem? hv, hbytes]
      refine ⟨low, high, hfile 0, ?_, hlow, hhigh⟩
      rw [show 45 + 2 * j = 44 + (2 * j + 1) by omega]
      exact hfile 1
  · intro hlarge
    exact if_neg (by omega)

end Sys2Proof.Machine

/-! The encoding family (30_encoding.md): its obligations, from the four kinds of command word, the shape every row of the opcode
table has, and the command port as a way to run a program. -/

namespace Sys2Proof

/-! ## Command words -/

/-- R76: what `{cmd, data}` decodes to, by the bits of `cmd`. -/
theorem decode_commandWord (cmd : BitVec 2) (data : Byte) :
    decode (.cmd (commandWord cmd data)) =
      if cmd.getLsbD 1 then (if cmd.getLsbD 0 then .decb data else .dec (lowNibble data))
      else if cmd.getLsbD 0 then .init else .nop := by
  obtain ⟨h9, h8⟩ := commandWord_cmdBits cmd data
  rw [decode, decodeCommand, h9, h8, dataField_commandWord]
  cases cmd.getLsbD 1 <;> cases cmd.getLsbD 0 <;> rfl

/-- `{00, data}` is `NOP`, whatever the data (R76). -/
theorem decode_commandWord_nop (data : Byte) : decode (.cmd (commandWord 0b00#2 data)) = .nop :=
  decode_commandWord ..

/-- `{01, data}` is `INIT`, whatever the data (R76). -/
theorem decode_commandWord_init (data : Byte) : decode (.cmd (commandWord 0b01#2 data)) = .init :=
  decode_commandWord ..

/-- `{10, data}` is `DEC` of the low nibble; the high nibble is ignored (R75, R76). -/
theorem decode_commandWord_dec (data : Byte) : decode (.cmd (commandWord 0b10#2 data)) = .dec (lowNibble data) :=
  decode_commandWord ..

/-- `{11, data}` is `DECB` of the data (R76). -/
theorem decode_commandWord_decb (data : Byte) : decode (.cmd (commandWord 0b11#2 data)) = .decb data :=
  decode_commandWord ..

/-- Every command word is one of the four values of `cmd` with some data (R72, R76). -/
theorem commandWord_cases (w : CommandWord) :
    ∃ data : Byte, w = commandWord 0b00#2 data ∨ w = commandWord 0b01#2 data ∨
      w = commandWord 0b10#2 data ∨ w = commandWord 0b11#2 data := by
  have hsplit : commandWord (w.extractLsb' 8 2) (dataField w) = w := BitVec.extractLsb'_append_extractLsb'
  have hcmd : ∀ cmd : BitVec 2, cmd = 0b00#2 ∨ cmd = 0b01#2 ∨ cmd = 0b10#2 ∨ cmd = 0b11#2 := by decide
  refine ⟨dataField w, ?_⟩
  rcases hcmd (w.extractLsb' 8 2) with h | h | h | h <;> rw [h] at hsplit <;> simp [hsplit]

/-- The low four bits of a byte, the others cleared. -/
theorem byte_and_low (b : Byte) : b &&& 0x0F#8 = 0#4 ++ lowNibble b := by
  calc b &&& 0x0F#8 = (highNibble b ++ lowNibble b) &&& (0#4 ++ 0xF#4) := by rw [nibbles_append]; rfl
    _ = (highNibble b &&& 0#4) ++ (lowNibble b &&& 0xF#4) := BitVec.and_append
    _ = 0#4 ++ lowNibble b := by rw [BitVec.and_zero, show (0xF#4) = BitVec.allOnes 4 from rfl, BitVec.and_allOnes]

/-- A mask acts on `cmd` and on the data apart. -/
theorem commandWord_and (cmd cmd' : BitVec 2) (data data' : Byte) :
    commandWord cmd data &&& commandWord cmd' data' = commandWord (cmd &&& cmd') (data &&& data') :=
  BitVec.and_append

/-- The mask `0x300` keeps `cmd` and clears the data. -/
theorem commandWord_and_cmd (cmd : BitVec 2) (data : Byte) : commandWord cmd data &&& 0x300#10 = commandWord cmd 0 := by
  calc commandWord cmd data &&& 0x300#10
      = commandWord (cmd &&& BitVec.allOnes 2) (data &&& 0#8) := commandWord_and cmd (BitVec.allOnes 2) data 0#8
    _ = commandWord cmd 0#8 := by rw [BitVec.and_allOnes, BitVec.and_zero]

/-- The mask `0x30F` clears the high nibble of the data. -/
theorem commandWord_and_cmd_low (cmd : BitVec 2) (data : Byte) :
    commandWord cmd data &&& 0x30F#10 = commandWord cmd (0#4 ++ lowNibble data) := by
  calc commandWord cmd data &&& 0x30F#10
      = commandWord (cmd &&& BitVec.allOnes 2) (data &&& 0x0F#8) := commandWord_and cmd (BitVec.allOnes 2) data 0x0F#8
    _ = commandWord cmd (0#4 ++ lowNibble data) := by rw [BitVec.and_allOnes, byte_and_low]

/-- Settles O6: one decoding lemma per value of `cmd`. -/
theorem commandFieldsAreReadAsTheMapSays : Obligations.CommandFieldsAreReadAsTheMapSays := by
  refine ⟨decode_commandWord_nop, decode_commandWord_init, fun upper code => ?_, decode_commandWord_decb⟩
  exact (decode_commandWord_dec (upper ++ code)).trans (by rw [lowNibble_append])

/-- Settles O8: the command words by the kind of word they are; a byte and three codewords as they stand. -/
theorem writtenOutWordsDecode : Obligations.WrittenOutWordsDecode :=
  ⟨decode_commandWord_nop 0xFF, decode_commandWord_init 0x00, decode_commandWord_dec 0xF1, decode_commandWord_decb 0x17,
    rfl, rfl, rfl, rfl⟩

/-- Decoding undoes encoding: the four commands by their decoding lemmas; a packed byte and each codeword by its bits. -/
@[simp] theorem decode_encode (i : Instr) : decode (encode i) = i := by
  cases i with
  | nop => exact decode_commandWord_nop 0
  | init => exact decode_commandWord_init 0
  | dec code => exact (decode_commandWord_dec (0#4 ++ code)).trans (by rw [lowNibble_append])
  | decb b => exact decode_commandWord_decb b
  | _ => rfl

/-- Settles O4: the encoder writes every operand where the decoder reads it. -/
theorem decodeOfEncodeIsTheInstruction : Obligations.DecodeOfEncodeIsTheInstruction :=
  decode_encode

/-- A codeword's row encodes to the codeword (R70, R77). -/
theorem encode_decodeCodeword (c : Codeword) : encode (decodeCodeword c) = .cw c := by
  revert c; decide

/-- Encoding what a command word decodes to keeps `cmd` and the bits of the data that are read (log 16). -/
theorem encode_decode_command (w : CommandWord) :
    encode (decode (.cmd w)) =
      .cmd (w &&& (if w.getLsbD 9 then (if w.getLsbD 8 then 0x3FF#10 else 0x30F#10) else 0x300#10)) := by
  obtain ⟨data, rfl | rfl | rfl | rfl⟩ := commandWord_cases w
  all_goals rw [(commandWord_cmdBits _ data).1, (commandWord_cmdBits _ data).2]
  · rw [decode_commandWord_nop]
    exact congrArg Encoded.cmd (commandWord_and_cmd 0b00#2 data).symm
  · rw [decode_commandWord_init]
    exact congrArg Encoded.cmd (commandWord_and_cmd 0b01#2 data).symm
  · rw [decode_commandWord_dec]
    exact congrArg Encoded.cmd (commandWord_and_cmd_low 0b10#2 data).symm
  · rw [decode_commandWord_decb]
    exact congrArg Encoded.cmd (BitVec.and_allOnes (x := commandWord 0b11#2 data)).symm

/-- Settles O5: a codeword's row and a byte carry every bit; a command word keeps the bits read. -/
theorem encodeOfDecodeKeepsEveryReadBit : Obligations.EncodeOfDecodeKeepsEveryReadBit :=
  ⟨encode_decodeCodeword, fun _ => rfl, encode_decode_command⟩

/-! ## The rows of the opcode table -/

/-- The bits of a format that the opcode table fixes: a codeword's all, a packed byte's none, of a command word `cmd`
(R76 to R78). -/
def Format.fixedBits : Format → Nat
  | .cw => 0xF
  | .packed => 0x00
  | .cmd => 0x300

/-- The one row a word can stand in: its format, and what it has in the bits that its format fixes. -/
def Encoded.row (e : Encoded) : OpcodeRow :=
  ⟨e.format, e.bits &&& e.format.fixedBits, e.format.fixedBits⟩

/-- The rows of one format all fix the same bits. -/
theorem opcodeRow_mask (i : Instr) : (opcodeRow i).mask = (opcodeRow i).format.fixedBits := by
  cases i <;> rfl

/-- A row of the table accepts a word exactly when it is the word's row. -/
theorem opcodeRow_accepts_iff (i : Instr) (e : Encoded) : (opcodeRow i).accepts e = true ↔ opcodeRow i = e.row := by
  have hmask := opcodeRow_mask i
  generalize opcodeRow i = row at hmask
  obtain ⟨format, value, mask⟩ := row
  simp only [OpcodeRow.accepts, Encoded.row, Bool.and_eq_true, decide_eq_true_eq, OpcodeRow.mk.injEq]
  constructor
  · rintro ⟨rfl, rfl⟩
    exact ⟨rfl, by rw [← hmask], hmask⟩
  · rintro ⟨rfl, rfl, rfl⟩
    exact ⟨rfl, rfl⟩

/-- The fixed bits of a command word, as a number, are those of `cmd` alone. -/
theorem commandWord_fixedBits (cmd : BitVec 2) (data : Byte) :
    (commandWord cmd data).toNat &&& 0x300 = (commandWord cmd 0).toNat :=
  congrArg BitVec.toNat (commandWord_and_cmd cmd data)

/-- A word decodes to an instruction of the word's row (R76 to R78). -/
theorem opcodeRow_decode (e : Encoded) : opcodeRow (decode e) = e.row := by
  cases e with
  | cw c => revert c; decide
  | packed b => exact congrArg (OpcodeRow.mk .packed · 0) (Nat.and_zero b.toNat).symm
  | cmd w =>
    obtain ⟨data, rfl | rfl | rfl | rfl⟩ := commandWord_cases w
    · rw [decode_commandWord_nop]
      exact congrArg (OpcodeRow.mk .cmd · 0x300) (commandWord_fixedBits 0b00#2 data).symm
    · rw [decode_commandWord_init]
      exact congrArg (OpcodeRow.mk .cmd · 0x300) (commandWord_fixedBits 0b01#2 data).symm
    · rw [decode_commandWord_dec]
      exact congrArg (OpcodeRow.mk .cmd · 0x300) (commandWord_fixedBits 0b10#2 data).symm
    · rw [decode_commandWord_decb]
      exact congrArg (OpcodeRow.mk .cmd · 0x300) (commandWord_fixedBits 0b11#2 data).symm

/-- Settles O7: a word decodes into its own row, and no other row accepts it. -/
theorem everyWordMatchesExactlyItsRow : Obligations.EveryWordMatchesExactlyItsRow := by
  intro e
  refine ⟨(opcodeRow_accepts_iff _ e).mpr (opcodeRow_decode e), fun i hi => ?_⟩
  rw [(opcodeRow_accepts_iff i e).mp hi, opcodeRow_decode]

end Sys2Proof

namespace Sys2Proof.Machine

/-! ## Codeword rows and the command port -/

/-- Settles O12: a codeword's row and `DEC` of the codeword are both the decode step of R90. -/
theorem codewordRowsAgreeWithDec : Obligations.CodewordRowsAgreeWithDec :=
  exec_decodeCodeword

/-- A block that is ready after the host took its samples accepts the slot's request, with the slot consumed (logs 4, 5). -/
theorem step_of_request {s : State} {p : Slot} {rest : List Slot} (hs : s.slots = p :: rest) (hr : p.rst = false)
    (hroom : s.out.length - (s.handed + min p.take (s.out.length - s.handed)) + 2 ≤ s.cfg.bufferDepth) :
    step s = accept p.request
      { s with slots := rest, handed := s.handed + min p.take (s.out.length - s.handed) } := by
  have hp : s.headSlot = p := State.headSlot_cons hs
  have hstate : s.popSlot.handOver p.take =
      { s with slots := rest, handed := s.handed + min p.take (s.out.length - s.handed) } := by
    simp [State.popSlot, State.handOver, hs]
  rw [step_accept (by rw [hp, hr]) (by rw [hp]; exact State.cmdReady_handOver hroom), hp, hstate]

/-- When that request is a command word, the step runs what it decodes to, before any turn of a sequencer (R76, log 7). -/
theorem step_command {s : State} {p : Slot} {rest : List Slot} {w : CommandWord}
    (hs : s.slots = p :: rest) (hr : p.rst = false) (hw : p.request = .command w)
    (hroom : s.out.length - (s.handed + min p.take (s.out.length - s.handed)) + 2 ≤ s.cfg.bufferDepth) :
    step s = exec (decode (.cmd w))
      { s with slots := rest, handed := s.handed + min p.take (s.out.length - s.handed) } := by
  rw [step_of_request hs hr hroom, hw, accept]

/-- Settles O27: a ready block accepts the command word and runs it. -/
theorem acceptedCommandRunsItsInstruction : Obligations.AcceptedCommandRunsItsInstruction :=
  fun _ _ _ _ => step_command

/-- The state with another script still to come, and another number of samples taken by the host. -/
def State.withPort (s : State) (handed : Nat) (slots : List Slot) : State :=
  { s with handed := handed, slots := slots }

/-- Decoding codewords neither reads nor changes what the host does at the ports. -/
theorem State.decodedAll_withPort (s : State) (handed : Nat) (slots : List Slot) (codes : List Codeword) :
    (s.withPort handed slots).decodedAll codes = (s.decodedAll codes).withPort handed slots := by
  induction codes generalizing s with
  | nil => rfl
  | cons c codes ih => exact ih (s.decoded c)

/-- An instruction does the same whatever the host does at the ports. -/
theorem exec_withPort {i : Instr} {s t : State} (handed : Nat) (slots : List Slot) (h : exec i s = .next t) :
    exec i (s.withPort handed slots) = .next (t.withPort handed slots) := by
  rcases exec_next_cases h with ⟨rfl, rfl⟩ | ⟨hi, hl, rfl⟩
  · rfl
  · rw [exec_eq_decodedAll (s := s.withPort handed slots) hi hl, State.decodedAll_withPort]

/-- R212, log 4: once the host has taken two of the samples held, there is room for two more. -/
abbrev State.RoomAfterTwo (s : State) : Prop :=
  s.out.length - (s.handed + min 2 (s.out.length - s.handed)) + 2 ≤ s.cfg.bufferDepth

/-- A block that took two samples and ran one instruction has room again after two more are taken (R55). -/
theorem State.RoomAfterTwo.after_exec {i : Instr} {s t : State} {handed : Nat} {slots slots' : List Slot}
    (hroom : (s.withPort handed slots).RoomAfterTwo) (h : exec i s = .next t) :
    (t.withPort (handed + min 2 (s.out.length - handed)) slots').RoomAfterTwo := by
  obtain ⟨hcfg, -, new, hout, hlen⟩ := exec_emitsUpToTwo h
  simp only [State.RoomAfterTwo, State.withPort, hcfg, hout, List.length_append] at hroom ⊢
  omega

/-- Command words offered one a slot, two samples taken in each, run the program they decode to: only what the host has taken and
its script differ (R76, R212). -/
theorem runSteps_commands (words : List CommandWord) {s t : State} {handed : Nat}
    (hroom : (s.withPort handed (words.map commandSlot)).RoomAfterTwo)
    (h : execAll (words.map fun w => decode (.cmd w)) s = .next t) :
    ∃ handed' : Nat, runSteps words.length (s.withPort handed (words.map commandSlot)) = .next (t.withPort handed' []) := by
  induction words generalizing s handed with
  | nil => cases h; exact ⟨handed, rfl⟩
  | cons w words ih =>
    cases hw : exec (decode (.cmd w)) s with
    | fault r => cases r
    | refused r => simp [execAll, hw] at h
    | next u =>
      have hstep : step (s.withPort handed ((w :: words).map commandSlot)) =
          .next (u.withPort (handed + min 2 (s.out.length - handed)) (words.map commandSlot)) :=
        (step_command rfl rfl rfl hroom).trans (exec_withPort _ _ hw)
      obtain ⟨handed', hrun⟩ := ih (hroom.after_exec hw) (by simpa [execAll, hw] using h)
      exact ⟨handed', by rw [List.length_cons, runSteps, hstep, andThen_next, hrun]⟩

/-- What the program of a stream does: it starts a stream and decodes the codewords of every visited byte (R82, R135). -/
theorem execAll_decsProgram (stride : Stride) (bytes : List Byte) (s : State) :
    execAll (decsProgram stride bytes) s =
      .next (s.startStream.decodedAll ((visited stride bytes).flatMap fun b => [highNibble b, lowNibble b])) := by
  have hdecb : ∀ i ∈ (visited stride bytes).map Instr.decb, i ≠ .init := by
    intro i hi
    obtain ⟨b, -, rfl⟩ := List.mem_map.mp hi
    simp
  rw [decsProgram, execAll, exec_init, andThen_next, execAll_launched _ hdecb s.startStream_initialised, List.flatMap_map]
  rfl

/-- Starting a stream and decoding the codewords of its visited bytes gives `decode(bytes)`: appended to OUT, as the current
stream, and in the registers (R135, log 10). -/
theorem State.startStream_decodedAll (s : State) (bytes : List Byte) :
    let t := s.startStream.decodedAll ((visited s.cfg.byteStride bytes).flatMap fun b => [highNibble b, lowNibble b])
    t.out = s.out ++ (decodeStream s.cfg bytes).samples ∧ t.result = decodeStream s.cfg bytes := by
  have hfresh : s.startStream.result = .fresh := by simp [State.result, StreamResult.fresh]
  have hdecode : decodeStream s.cfg bytes = decodeCodewordsFrom s.cfg .fresh
      ((visited s.cfg.byteStride bytes).flatMap fun b => [highNibble b, lowNibble b]) := decodeBytesFrom_eq_codewords ..
  rw [hdecode]
  exact ⟨(s.startStream.decodedAll_emitted _).1, by rw [State.decodedAll_result _ _ le_rfl, hfresh]; rfl⟩

/-- Words that encode a program decode to it. -/
theorem decode_words_of_encode {program : List Instr} {words : List CommandWord}
    (h : program.map encode = words.map Encoded.cmd) : (words.map fun w => decode (.cmd w)) = program := by
  calc (words.map fun w => decode (.cmd w)) = (words.map Encoded.cmd).map decode := by rw [List.map_map]; rfl
    _ = (program.map encode).map decode := by rw [h]
    _ = program := by simp [Function.comp_def]

/-- Settles O45: the words run the stream's program, which decodes the stream. -/
theorem commandPortDecodesTheStream : Obligations.CommandPortDecodesTheStream := by
  intro s bytes words hwords hslots _ hready
  have hport : s = s.withPort s.handed (words.map commandSlot) := by rw [← hslots]; rfl
  have hroom : s.RoomAfterTwo := by
    have hnow : s.out.length - s.handed + 2 ≤ s.cfg.bufferDepth := of_decide_eq_true hready
    unfold State.RoomAfterTwo
    omega
  have hprogram := execAll_decsProgram s.cfg.byteStride bytes s
  rw [← decode_words_of_encode hwords] at hprogram
  obtain ⟨handed', hrun⟩ := runSteps_commands words (hport ▸ hroom) hprogram
  obtain ⟨hout, hresult⟩ := s.startStream_decodedAll bytes
  exact ⟨_, (congrArg _ hport).trans hrun, hout, congrArg StreamResult.samples hresult,
    congrArg StreamResult.regs hresult, rfl⟩

end Sys2Proof.Machine

/-! The decode-step family (40_decode_step.md): its obligations, from the three facts about one codeword: the predictor it leaves,
the index it leaves, and that nothing else changes; and from what a codeword's magnitude bits alone fix. -/

namespace Sys2Proof.Machine

/-! ## The clamps, case by case -/

theorem clamp_of_lt {v lo hi : Int} (h : v < lo) : clamp v lo hi = lo := if_pos h

theorem clamp_of_gt {v lo hi : Int} (hle : lo ≤ hi) (h : hi < v) : clamp v lo hi = hi := by
  rw [clamp, if_neg (by omega), if_pos h]

theorem clamp_of_mem {v lo hi : Int} (hlo : lo ≤ v) (hhi : v ≤ hi) : clamp v lo hi = v := by
  rw [clamp, if_neg (by omega), if_neg (by omega)]

/-- The range of the predictor (R20). -/
theorem predictor_mem (p : BitVec 16) : -32768 ≤ p.toInt ∧ p.toInt ≤ 32767 := by
  have hle := BitVec.le_toInt p
  have hlt := BitVec.toInt_lt (x := p)
  omega

/-- Clamping a predictor that has not moved gives it back. -/
theorem clampPredictor_toInt_self (p : BitVec 16) : clampPredictor p.toInt = p := by
  obtain ⟨hlo, hhi⟩ := predictor_mem p
  rw [clampPredictor, clamp_of_mem hlo hhi, BitVec.ofInt_toInt]

/-! ## What one codeword leaves -/

/-- R95: as a factor of the difference. -/
def Direction.sign : Direction → Int
  | .add => 1
  | .subtract => -1

theorem rawPredictor_eq_sign (p : Int) (dir : Direction) (diff : Nat) :
    rawPredictor p dir diff = p + dir.sign * diff := by
  cases dir with
  | add => simp [rawPredictor, Direction.sign]
  | subtract => simp [rawPredictor, Direction.sign, Int.sub_eq_add_neg]

theorem rawPredictor_direction (p : Int) (code : Codeword) (diff : Nat) :
    rawPredictor p (direction code) diff = if code.getLsbD 3 then p - diff else p + diff := by
  unfold direction
  split_ifs <;> rfl

/-- A launched block completes `DEC` of any codeword (R90, R91). -/
theorem exec_dec_launched {s : State} (code : Codeword) (h : s.launched) : exec (.dec code) s = .next (s.decoded code) :=
  decodeStep_launched code h

section
variable (s : State) (code : Codeword)

/-- R90 steps 1 to 4: the new predictor is the clamped exact sum (R96). -/
theorem State.decoded_predictor_toInt :
    (s.decoded code).regs.predictor.toInt =
      clamp (rawPredictor s.regs.predictor.toInt (direction code) (difference s.stepSize code)) (-32768) 32767 :=
  clampPredictor_toInt _

/-- R90 step 5: the new index is the clamped sum of the old index and the codeword's delta (R92, R98). -/
theorem State.decoded_stepIndex_val :
    ((s.decoded code).regs.stepIndex.val : Int) =
      clamp ((s.regs.stepIndex.val : Int) + s.cfg.indexTable[code.toNat]) 0 88 :=
  clampIndex_val _

/-- R90 step 6, R97: the sample is the new predictor, and nothing but the registers and OUT changes. -/
theorem State.decoded_eq_with :
    s.decoded code =
      { s with regs := (s.decoded code).regs, out := s.out ++ [(s.decoded code).regs.predictor] } := rfl

/-- A difference of 0 leaves the predictor as it was, in either direction. -/
theorem State.decoded_predictor_of_difference_zero (h : difference s.stepSize code = 0) :
    (s.decoded code).regs.predictor = s.regs.predictor := by
  have hraw : rawPredictor s.regs.predictor.toInt (direction code) (difference s.stepSize code) =
      s.regs.predictor.toInt := by
    rw [h, rawPredictor_eq_sign]
    simp
  exact (congrArg clampPredictor hraw).trans (clampPredictor_toInt_self _)

end

/-- Settles O9: the three facts about one codeword, the difference written with floors. -/
theorem decIsTheSpecifiedStep : Obligations.DecIsTheSpecifiedStep := by
  intro s code h
  have hp := s.decoded_predictor_toInt code
  rw [rawPredictor_direction, difference_eq_floors, Nat.cast_add, Nat.cast_add, Nat.cast_add] at hp
  exact ⟨s.decoded code, exec_dec_launched code h, hp, s.decoded_stepIndex_val code, s.decoded_eq_with code⟩

/-! ## The codeword rows -/

/-- Every codeword row moves the predictor by its codeword's difference in its codeword's direction (R77, R95). -/
theorem rowStep_decodeCodeword (code : Codeword) :
    RowStep (decodeCodeword code) code.toFin (direction code).sign (fun step => difference step code) := by
  intro s h
  refine ⟨s.decoded code, (exec_decodeCodeword code s).trans (decodeStep_launched code h), ?_,
    s.decoded_stepIndex_val code, s.decoded_eq_with code⟩
  rw [s.decoded_predictor_toInt, rawPredictor_eq_sign]
  rfl

/-- Settles O10: each rule is the row of its codeword, with that codeword's bits evaluated in the difference. -/
theorem addingCodewordsFollowTheirRules : Obligations.AddingCodewordsFollowTheirRules :=
  ⟨rowStep_decodeCodeword 0, rowStep_decodeCodeword 1, rowStep_decodeCodeword 2, rowStep_decodeCodeword 3,
    rowStep_decodeCodeword 4, rowStep_decodeCodeword 5, rowStep_decodeCodeword 6, rowStep_decodeCodeword 7⟩

/-- Settles O11: likewise for the codewords with the sign bit. -/
theorem subtractingCodewordsFollowTheirRules : Obligations.SubtractingCodewordsFollowTheirRules :=
  ⟨rowStep_decodeCodeword 8, rowStep_decodeCodeword 9, rowStep_decodeCodeword 10, rowStep_decodeCodeword 11,
    rowStep_decodeCodeword 12, rowStep_decodeCodeword 13, rowStep_decodeCodeword 14, rowStep_decodeCodeword 15⟩

/-! ## The difference -/

/-- The difference reads the magnitude bits alone (R94). -/
theorem difference_magnitude (step : Nat) (code : Codeword) : difference step (code &&& 7) = difference step code := by
  simp [difference]

/-- Without magnitude bits the difference is its first term (R100). -/
theorem difference_of_magnitude_zero (step : Nat) {code : Codeword} (h : code &&& 7 = 0) :
    difference step code = step / 8 := by
  rw [← difference_magnitude, h, difference_eq_floors]
  simp

/-- With all magnitude bits the difference has all four terms (R107). -/
theorem difference_of_magnitude_seven (step : Nat) {code : Codeword} (h : code &&& 7 = 7) :
    difference step code = step / 8 + step + step / 2 + step / 4 := by
  rw [← difference_magnitude, h, difference_eq_floors]
  simp

/-- The difference lies between its first term and the sum of all four (R94). -/
theorem difference_mem (step : Nat) (code : Codeword) :
    step / 8 ≤ difference step code ∧ difference step code ≤ step / 8 + step + step / 2 + step / 4 := by
  rw [difference_eq_floors]
  split_ifs <;> omega

/-- R46: the largest step size is the last, 32767. -/
theorem standardStepTable_le (i : Fin 89) : standardStepTable[i] ≤ 32767 := by
  revert i; decide

/-- The largest difference with the default `StepTable` (R94). -/
theorem difference_standard_le (i : Fin 89) (code : Codeword) : difference standardStepTable[i] code ≤ 61436 := by
  have hstep := standardStepTable_le i
  have hdiff := (difference_mem standardStepTable[i] code).2
  omega

/-- Settles O13: the four floored terms and their bounds; the two numerical facts by evaluation. -/
theorem differenceIsFourTruncatedTerms : Obligations.DifferenceIsFourTruncatedTerms := by
  refine ⟨fun step code => ?_, rfl, rfl, difference_standard_le, rfl⟩
  obtain ⟨hmin, hmax⟩ := difference_mem step code
  exact ⟨difference_eq_floors step code, hmin, hmax, difference_of_magnitude_zero step,
    difference_of_magnitude_seven step⟩

/-! ## Saturation -/

/-- R96: the exact sum lies no further outside the predictor's range than the difference is large. -/
theorem rawPredictor_mem (p : BitVec 16) (dir : Direction) (diff : Nat) :
    -32768 - (diff : Int) ≤ rawPredictor p.toInt dir diff ∧ rawPredictor p.toInt dir diff ≤ 32767 + diff := by
  obtain ⟨hlo, hhi⟩ := predictor_mem p
  cases dir <;> simp only [rawPredictor] <;> omega

/-- With the default `StepTable` no difference is above 61436 (R94). -/
theorem State.difference_stepSize_le {s : State} (h : s.cfg.stepTable = standardStepTable) (code : Codeword) :
    difference s.stepSize code ≤ 61436 := by
  rw [State.stepSize, readStep, h]
  exact difference_standard_le _ code

/-- Settles O14: the clamp's three cases, and the range of the sum from that of the difference. -/
theorem predictorSaturatesFromTheExactSum : Obligations.PredictorSaturatesFromTheExactSum := by
  intro s code h
  refine ⟨s.decoded code, exec_dec_launched code h, ?_⟩
  intro raw
  have hp : _ = clamp raw (-32768) 32767 := s.decoded_predictor_toInt code
  refine ⟨fun hgt => hp.trans (clamp_of_gt (by decide) hgt), fun hlt => hp.trans (clamp_of_lt hlt),
    fun hlo hhi => hp.trans (clamp_of_mem hlo hhi), fun htable => ?_⟩
  have hdiff := State.difference_stepSize_le htable code
  obtain ⟨hlo, hhi⟩ : _ ≤ raw ∧ raw ≤ _ := rawPredictor_mem s.regs.predictor (direction code) (difference s.stepSize code)
  omega

/-- R47: the default deltas by magnitude: -1 up to 3, then 2, 4, 6, 8 (R117). -/
theorem standardIndexTable_getElem (code : Codeword) :
    standardIndexTable[code.toNat] =
      if (code &&& 7).toNat ≤ 3 then (-1 : Int) else 2 * (((code &&& 7).toNat : Int) - 3) := by
  revert code; decide

/-- The default deltas lie between -1 and 8 (R47). -/
theorem standardIndexTable_mem (code : Codeword) :
    -1 ≤ standardIndexTable[code.toNat] ∧ standardIndexTable[code.toNat] ≤ 8 := by
  revert code; decide

/-- Settles O15: the clamp's three cases, and the range of the sum from that of the default deltas. -/
theorem stepIndexSaturatesInTheSameStep : Obligations.StepIndexSaturatesInTheSameStep := by
  intro s code h
  refine ⟨s.decoded code, exec_dec_launched code h, ?_⟩
  intro idx
  have hi : _ = clamp idx 0 88 := s.decoded_stepIndex_val code
  refine ⟨fun hlt => ?_, fun hgt => ?_, fun hlo hhi => hi.trans (clamp_of_mem hlo hhi), fun htable => ?_⟩
  · rw [clamp_of_lt hlt] at hi
    exact_mod_cast hi
  · rw [clamp_of_gt (by decide) hgt] at hi
    exact_mod_cast hi
  · have hindex := s.regs.stepIndex.isLt
    have hdelta := standardIndexTable_mem code
    simp only [← htable] at hdelta
    omega

/-! ## The source's properties -/

/-- Without magnitude bits, at a first step below 8, the difference is 0 (R45 (c), R118). -/
theorem State.difference_zero_of_firstStep {s : State} {code : Codeword} (hstep : s.cfg.stepTable[0] >>> 3 = 0)
    (hindex : s.regs.stepIndex = 0) (hcode : code &&& 7 = 0) : difference s.stepSize code = 0 := by
  rw [difference_of_magnitude_zero _ hcode, State.stepSize, readStep, hindex]
  rwa [Nat.shiftRight_eq_div_pow] at hstep

/-- R118 (a), (b): `DEC` leaves exactly one state, with its sample and registers in range. -/
theorem exec_dec_existsUnique {s : State} (code : Codeword) (h : s.launched) :
    ∃! t : State, exec (.dec code) s = .next t ∧ t.out.getLast? = some t.regs.predictor ∧
      -32768 ≤ t.regs.predictor.toInt ∧ t.regs.predictor.toInt ≤ 32767 ∧ t.regs.stepIndex.val ≤ 88 := by
  have hexec := exec_dec_launched code h
  obtain ⟨hlo, hhi⟩ := predictor_mem (s.decoded code).regs.predictor
  refine ⟨s.decoded code, ⟨hexec, List.getLast?_concat, hlo, hhi, Nat.le_of_lt_succ (Fin.isLt _)⟩, ?_⟩
  rintro t ⟨ht, -⟩
  exact Host.Outcome.next.inj (ht.symm.trans hexec)

/-- R118 (c): `DEC 0` keeps the registers `{0, 0}`. -/
theorem State.decoded_zero_regs {s : State} (hstep : s.cfg.stepTable[0] >>> 3 = 0) (hdelta : s.cfg.indexTable[0] = -1)
    (hregs : s.regs = { predictor := 0, stepIndex := 0 }) : (s.decoded 0).regs = s.regs := by
  have hdiff : difference s.stepSize 0 = 0 := State.difference_zero_of_firstStep hstep (by rw [hregs]) rfl
  have hp : (s.decoded 0).regs.predictor = 0 := by rw [s.decoded_predictor_of_difference_zero 0 hdiff, hregs]
  have hi : (s.decoded 0).regs.stepIndex = 0 := by
    have hraw : rawIndex s.cfg s.regs.stepIndex 0 = -1 := by
      rw [hregs]
      exact (Int.zero_add _).trans hdelta
    exact congrArg clampIndex hraw
  exact (congrArg₂ DecoderState.mk hp hi).trans hregs.symm

/-- Settles O16: (a), (b) for every codeword; (c), (d) because the difference is 0 and so the predictor does not move. -/
theorem decHasTheSourcesTestableProperties : Obligations.DecHasTheSourcesTestableProperties := by
  refine ⟨fun s code h => exec_dec_existsUnique code h, fun s h hstep hdelta hregs => ?_, fun s h hstep hregs => ?_⟩
  · have hzero := State.decoded_zero_regs hstep hdelta hregs
    rw [exec_dec_launched 0 h, s.decoded_eq_with, hzero, hregs]
  · have hdiff : difference s.stepSize 8 = 0 := State.difference_zero_of_firstStep hstep (by rw [hregs]) rfl
    have hp : (s.decoded 8).regs.predictor = 100 := by rw [s.decoded_predictor_of_difference_zero 8 hdiff, hregs]
    have hi := s.decoded_stepIndex_val 8
    rw [hregs] at hi
    refine ⟨s.decoded 8, exec_dec_launched 8 h, by rw [hp]; rfl, by rw [s.decoded_eq_with, hp], hi, fun htable => ?_⟩
    simp only [htable] at hi
    exact Int.ofNat_inj.mp hi

/-! ## What the magnitude bits alone fix -/

/-- With the default `IndexTable` the index left depends on the old index and the magnitude (R92, R117). -/
theorem State.decoded_stepIndex_standard {s : State} (h : s.cfg.indexTable = standardIndexTable) (code : Codeword) :
    (s.decoded code).regs.stepIndex.val =
      if (code &&& 7).toNat ≤ 3 then s.regs.stepIndex.val - 1
      else min (s.regs.stepIndex.val + 2 * ((code &&& 7).toNat - 3)) 88 := by
  have hi := s.decoded_stepIndex_val code
  have hindex := s.regs.stepIndex.isLt
  simp only [h, standardIndexTable_getElem, clamp_eq_max_min (lo := 0) (hi := 88) (by decide)] at hi
  split_ifs at hi ⊢ <;> omega

/-- Equal magnitudes take equal indices to equal indices (R117). -/
theorem State.decoded_stepIndex_congr {s₁ s₂ : State} {c₁ c₂ : Codeword} (h₁ : s₁.cfg.indexTable = standardIndexTable)
    (h₂ : s₂.cfg.indexTable = standardIndexTable) (hindex : s₁.regs.stepIndex = s₂.regs.stepIndex)
    (hcode : c₁ &&& 7 = c₂ &&& 7) : (s₁.decoded c₁).regs.stepIndex = (s₂.decoded c₂).regs.stepIndex := by
  apply Fin.ext
  rw [State.decoded_stepIndex_standard h₁, State.decoded_stepIndex_standard h₂, hindex, hcode]

/-- So do sequences of equal magnitudes (R117). -/
theorem State.decodedAll_stepIndex_congr {codes₁ codes₂ : List Codeword}
    (hcodes : codes₁.map (· &&& 7) = codes₂.map (· &&& 7)) {s₁ s₂ : State}
    (h₁ : s₁.cfg.indexTable = standardIndexTable) (h₂ : s₂.cfg.indexTable = standardIndexTable)
    (hindex : s₁.regs.stepIndex = s₂.regs.stepIndex) :
    (s₁.decodedAll codes₁).regs.stepIndex = (s₂.decodedAll codes₂).regs.stepIndex := by
  induction codes₁ generalizing codes₂ s₁ s₂ with
  | nil =>
    obtain rfl : codes₂ = [] := List.map_eq_nil_iff.mp hcodes.symm
    exact hindex
  | cons c₁ codes₁ ih =>
    obtain ⟨c₂, rest, rfl, hc, hrest⟩ := List.map_eq_cons_iff.mp hcodes.symm
    exact ih hrest.symm (s₁ := s₁.decoded c₁) (s₂ := s₂.decoded c₂) h₁ h₂
      (State.decoded_stepIndex_congr h₁ h₂ hindex hc.symm)

/-- A launched block runs `DEC` of each codeword of a sequence (R58, R90). -/
theorem execAll_dec_launched {s : State} (codes : List Codeword) (h : s.launched) :
    execAll (codes.map .dec) s = .next (s.decodedAll codes) := by
  have hdec : ∀ i ∈ codes.map Instr.dec, i ≠ .init := by
    intro i hi
    obtain ⟨c, -, rfl⟩ := List.mem_map.mp hi
    simp
  have hcodes : (codes.map Instr.dec).flatMap codewordsOf = codes := by
    simp [List.flatMap_map, codewordsOf]
  rw [execAll_launched _ hdec h, hcodes]

/-- Settles O18: the law for one codeword, and by induction for sequences. -/
theorem indexTrajectoryDependsOnMagnitudesOnly : Obligations.IndexTrajectoryDependsOnMagnitudesOnly := by
  refine ⟨fun s code h htable => ?_, fun s₁ s₂ codes₁ codes₂ hl₁ hl₂ h₁ h₂ hindex hcodes => ?_⟩
  · exact ⟨s.decoded code, exec_dec_launched code h, State.decoded_stepIndex_standard htable code⟩
  · exact ⟨_, _, execAll_dec_launched codes₁ hl₁, execAll_dec_launched codes₂ hl₂,
      State.decodedAll_stepIndex_congr hcodes h₁ h₂ hindex⟩

/-! ## The mirror law -/

/-- R116: a codeword and its mirror differ in the direction (R95) and share the magnitude. -/
theorem mirror_fields (m : BitVec 3) :
    direction (0#1 ++ m) = .add ∧ direction (1#1 ++ m) = .subtract ∧
      ((0#1 ++ m : Codeword) &&& 7) = ((1#1 ++ m : Codeword) &&& 7) := by
  revert m; decide

/-- Settles O17: the difference and the default index are functions of the magnitude, the sign picks the direction. -/
theorem mirrorCodewordsShareDifferenceAndIndex : Obligations.MirrorCodewordsShareDifferenceAndIndex := by
  intro s m h
  obtain ⟨hadd, hsub, hmag⟩ := mirror_fields m
  have hdiff : difference s.stepSize (1#1 ++ m) = difference s.stepSize (0#1 ++ m) := by
    rw [← difference_magnitude, ← hmag, difference_magnitude]
  have hup := s.decoded_predictor_toInt (0#1 ++ m)
  have hdown := s.decoded_predictor_toInt (1#1 ++ m)
  rw [hadd] at hup
  rw [hsub, hdiff] at hdown
  exact ⟨_, _, _, exec_dec_launched _ h, exec_dec_launched _ h, rfl, hup, hdown,
    fun htable => State.decoded_stepIndex_congr htable htable rfl hmag⟩

end Sys2Proof.Machine

/-! The stream family (41_stream_operations.md): its obligations, from what a turn of the sequencer adds to the stream decoded so
far, from a run of such turns over IN, and from the laws of the fold. -/

namespace Sys2Proof.Machine

/-! ## The stream at its start -/

/-- A stream just started has come to nothing yet (R131, R32). -/
theorem State.startStream_result (s : State) : s.startStream.result = .fresh := by
  simp [State.result, StreamResult.fresh]

/-- A stream that has come to nothing, with its sequencer at the start, is decoded. -/
theorem State.tracksDecode_of_fresh {s : State} (hr : s.result = .fresh) (hc : s.seq.cursor = 0) (hp : s.seq.phase = .hi) :
    s.tracksDecode :=
  fun _ _ => hr.trans (s.seq.progress_start s.cfg hc hp).symm

/-- Starting a stream leaves it decoded (R136). -/
theorem State.startStream_tracksDecode (s : State) : s.startStream.tracksDecode :=
  State.tracksDecode_of_fresh s.startStream_result rfl rfl

/-- A hardware reset leaves the stream decoded (R200). -/
theorem State.hardwareReset_tracksDecode (s : State) : s.hardwareReset.tracksDecode :=
  State.tracksDecode_of_fresh rfl rfl rfl

/-- Settles O41: the three are streams at their start; the state after reset is a hardware reset's. -/
theorem resetAndStreamStartHaveTheStreamDecoded : Obligations.ResetAndStreamStartHaveTheStreamDecoded :=
  ⟨⟨rfl, State.powerOn.hardwareReset_tracksDecode⟩, State.hardwareReset_tracksDecode,
    fun s unit bytes => (s.loadStream unit bytes).startStream_tracksDecode⟩

/-! ## What a step keeps of the decoded stream -/

/-- A turn of the sequencer adds the codewords issued to the stream and to the sequencer's progress alike (R135, R136). -/
theorem sequencerTurn_tracksDecode {s t : State} (h : s.Inv) (htrack : s.tracksDecode) (ht : sequencerTurn s = .next t) :
    t.tracksDecode := by
  rcases sequencerTurn_next_cases ht with ⟨-, rfl⟩ | ⟨e, q, hq, -, rfl⟩
  · exact htrack
  · obtain ⟨-, -, hstart, -⟩ := id h
    obtain ⟨hcfg, hinit, -⟩ := s.decodedAll_frame (codewordsOf (decode e))
    intro hl hw
    have hnow : s.result = s.seq.progress s.cfg := htrack (hinit ▸ hl) ((State.issue_frame hq).2.2 ▸ hw)
    calc (s.decodedAll (codewordsOf (decode e))).result
        = decodeCodewordsFrom s.cfg s.result (codewordsOf (decode e)) := s.decodedAll_result _ hstart
      _ = q.progress s.cfg := by rw [hnow, State.issue_progress hq h]
      _ = q.progress (s.decodedAll (codewordsOf (decode e))).cfg := by rw [hcfg]

/-- A request that is no command word keeps the stream decoded: a turn of the sequencer, or a new stream (log 7). -/
theorem accept_tracksDecode {r : Request} {s t : State} (hr : r.isNoCommand = true) (h : s.Inv) (htrack : s.tracksDecode)
    (ht : accept r s = .next t) : t.tracksDecode := by
  cases r with
  | idle => exact sequencerTurn_tracksDecode h htrack ht
  | command w => simp [Request.isNoCommand] at hr
  | stream unit bytes =>
    rw [accept, exec_init] at ht
    cases ht
    exact State.startStream_tracksDecode _

/-- No instruction writes the host's script. -/
theorem exec_slots {i : Instr} {s t : State} (h : exec i s = .next t) : t.slots = s.slots :=
  (instructionFrame i s t h).2.1

/-- Nor does an accepted request. -/
theorem accept_slots {r : Request} {s t : State} (h : accept r s = .next t) : t.slots = s.slots := by
  cases r with
  | command w => exact exec_slots h
  | stream unit bytes => exact exec_slots (i := .init) (s := s.loadStream unit bytes) h
  | idle =>
    rcases sequencerTurn_next_cases h with ⟨-, rfl⟩ | ⟨e, q, -, -, rfl⟩
    · rfl
    · obtain ⟨-, -, -, -, -, hslots⟩ := s.decodedAll_frame (codewordsOf (decode e))
      exact hslots

/-- A step consumes one slot of the script (log 5). -/
theorem step_slots {s t : State} (h : step s = .next t) : t.slots = s.slots.tail := by
  rcases step_next_cases h with ⟨-, rfl⟩ | ⟨-, -, rfl⟩ | ⟨-, -, hacc⟩
  · rfl
  · rfl
  · exact accept_slots hacc

/-- A script without command words has none in its next slot (log 6 past its end). -/
theorem State.portFree.headSlot_isNoCommand {s : State} (h : s.portFree) : s.headSlot.request.isNoCommand = true := by
  cases hs : s.slots with
  | nil => simp [State.headSlot, hs, State.idleSlot, Request.isNoCommand]
  | cons p rest =>
    rw [State.headSlot_cons hs]
    exact List.all_eq_true.mp h p (by simp [hs])

/-- The rest of a script without command words has none. -/
theorem State.portFree.of_tail {s t : State} (h : s.portFree) (ht : t.slots = s.slots.tail) : t.portFree :=
  List.all_eq_true.mpr fun p hp => List.all_eq_true.mp h p (List.mem_of_mem_tail (ht ▸ hp))

/-- Settles O40: of what a step can do, a reset starts the stream, the host's taking reads neither stream nor sequencer, and the
request accepted is no command word. -/
theorem everyStepKeepsTheStreamDecoded : Obligations.EveryStepKeepsTheStreamDecoded := by
  intro s t h hfree htrack ht
  refine ⟨everyStepKeepsTheStateInvariant s t h ht, hfree.of_tail (step_slots ht), ?_⟩
  rcases step_next_cases ht with ⟨-, rfl⟩ | ⟨-, -, rfl⟩ | ⟨-, -, hacc⟩
  · exact State.hardwareReset_tracksDecode _
  · exact htrack
  · exact accept_tracksDecode hfree.headSlot_isNoCommand (State.handOver_inv _ (State.popSlot_inv h)) htrack hacc

/-- A sequencer past the end of IN holds no byte (R24, R41). -/
theorem State.Inv.phase_hi_of_finished {s : State} (h : s.Inv) (hend : s.seq.input.length ≤ s.seq.cursor) :
    s.seq.phase = .hi := by
  obtain ⟨-, -, -, -, -, hheld, -⟩ := h
  cases hp : s.seq.phase with
  | hi => rfl
  | lo b => simpa [List.getElem?_eq_none hend] using (hheld b hp).2

/-- Settles O42: past the end, the sequencer's progress is all of `decode(in)`. -/
theorem finishedRunIsTheDecodeOfItsInput : Obligations.FinishedRunIsTheDecodeOfItsInput := by
  intro s h hl hw htrack hend
  have hresult : s.result = decodeStream s.cfg s.seq.input :=
    (htrack hl hw).trans (s.seq.progress_finished s.cfg (h.phase_hi_of_finished hend) hend)
  exact ⟨congrArg StreamResult.samples hresult, congrArg StreamResult.regs hresult⟩

/-! ## A sequencer left alone -/

/-- Past its script the host takes every sample, so the block is ready and the sequencer has its turn (log 6). -/
theorem step_script_ended {s : State} (hs : s.slots = []) (hh : s.handed ≤ s.out.length) (hd : 2 ≤ s.cfg.bufferDepth) :
    step s = sequencerTurn (s.withPort s.out.length []) := by
  have hhead : s.headSlot = s.idleSlot := by simp [State.headSlot, hs]
  have hstate : s.popSlot.handOver s.idleSlot.take = s.withPort s.out.length [] := by
    simp [State.popSlot, State.handOver, State.idleSlot, State.withPort, hs]
    omega
  rw [step_accept (by rw [hhead]; rfl), hhead, hstate]
  · rfl
  · rw [hhead, hstate]
    simpa [State.cmdReady, State.withPort] using hd

/-- A launched block whose host's script has ended, with room for one command (logs 4, 6). -/
structure State.Unattended (s : State) : Prop where
  launched : s.launched
  slots : s.slots = []
  handed : s.handed ≤ s.out.length
  depth : 2 ≤ s.cfg.bufferDepth

/-- The state after the sequencer has decoded `codes` and stands at `q`, when the host has taken `handed` samples and its script has
ended. -/
def State.walked (s : State) (codes : List Codeword) (q : Sequencer) (handed : Nat) : State :=
  ((s.decodedAll codes).setSeq q).withPort handed []

section
variable (s : State) (codes : List Codeword) (q : Sequencer) (handed : Nat)

@[simp] theorem State.walked_seq : (s.walked codes q handed).seq = q := rfl
@[simp] theorem State.walked_out : (s.walked codes q handed).out = (s.decodedAll codes).out := rfl
@[simp] theorem State.walked_cfg : (s.walked codes q handed).cfg = s.cfg := (s.decodedAll_frame codes).1
@[simp] theorem State.walked_initialised : (s.walked codes q handed).initialised = s.initialised :=
  (s.decodedAll_frame codes).2.1

/-- Walking on is one walk over both stretches. -/
theorem State.walked_walked (codes' : List Codeword) (q' : Sequencer) (handed' : Nat) :
    (s.walked codes q handed).walked codes' q' handed' = s.walked (codes ++ codes') q' handed' := by
  unfold State.walked
  rw [State.decodedAll_withPort, State.decodedAll_setSeq, ← State.decodedAll_append]
  rfl

end

/-- A walk leaves the block unattended, as long as the host has taken no more than there is. -/
theorem State.Unattended.walked {s : State} (h : s.Unattended) (codes : List Codeword) (q : Sequencer) {handed : Nat}
    (hh : handed ≤ (s.decodedAll codes).out.length) : (s.walked codes q handed).Unattended where
  launched := (s.walked_initialised codes q handed).trans h.launched
  slots := rfl
  handed := hh
  depth := by simpa using h.depth

/-- A host that took every sample has taken no more than there is after the next codewords. -/
theorem State.out_length_le_decodedAll (s : State) (codes : List Codeword) :
    s.out.length ≤ (s.decodedAll codes).out.length := by
  obtain ⟨new, -, hout⟩ := s.decodedAll_out codes
  simp [hout]

/-- An unattended block's step decodes the unit the sequencer issues (R136), the host taking every sample there was (log 6). -/
theorem step_unattended {s : State} {e : Encoded} {q : Sequencer} (h : s.Unattended) (hq : s.issue = some (e, q)) :
    step s = .next (s.walked (codewordsOf (decode e)) q s.out.length) ∧
      (s.walked (codewordsOf (decode e)) q s.out.length).Unattended := by
  refine ⟨?_, h.walked _ _ (s.out_length_le_decodedAll _)⟩
  calc step s
      = sequencerTurn (s.withPort s.out.length []) := step_script_ended h.slots h.handed h.depth
    _ = exec (decode e) ((s.setSeq q).withPort s.out.length []) := sequencerTurn_of_issue hq
    _ = .next (s.walked (codewordsOf (decode e)) q s.out.length) := by
        rw [exec_launched (s := (s.setSeq q).withPort s.out.length []) (State.issue_frame hq).1 h.launched,
          State.decodedAll_withPort, State.decodedAll_setSeq]
        rfl

/-- A run continues from the state its first step left. -/
theorem runSteps_succ {s t : State} (h : step s = .next t) (n : Nat) : runSteps (n + 1) s = runSteps n t := by
  rw [runSteps, h, andThen_next]

/-- R144: a byte-wise sequencer issues the byte at the cursor and moves on by a stride. -/
theorem State.issue_bytes {s : State} {b : Byte} (hw : s.seq.walking = some .bytes)
    (hb : s.seq.input[s.seq.cursor]? = some b) :
    s.issue = some (.packed b, { s.seq with cursor := s.seq.cursor + s.cfg.byteStride.bytes }) := by
  simp [State.issue, State.readIn, hw, hb]

/-- R24: the steps a byte takes: one as a byte, two as nibbles. -/
abbrev StreamUnit.stepsPerByte (unit : StreamUnit) : Nat :=
  if unit = .bytes then 1 else 2

/-- In its steps for a byte an unattended sequencer of either unit decodes both nibbles of the byte at the cursor, the high one
first, and moves on by a stride (R50, R136). -/
theorem runSteps_byte {s : State} {unit : StreamUnit} {b : Byte} (h : s.Unattended) (hw : s.seq.walking = some unit)
    (hp : s.seq.phase = .hi) (hb : s.seq.input[s.seq.cursor]? = some b) :
    ∃ t : State, ∃ handed : Nat, runSteps unit.stepsPerByte s = .next t ∧ t.Unattended ∧
      t = s.walked [highNibble b, lowNibble b]
        { s.seq with cursor := s.seq.cursor + s.cfg.byteStride.bytes } handed := by
  cases unit with
  | bytes =>
    obtain ⟨hstep, hnext⟩ := step_unattended h (State.issue_bytes hw hb)
    exact ⟨_, s.out.length, runSteps_succ hstep 0, hnext, rfl⟩
  | nibbles =>
    obtain ⟨hhigh, hmid⟩ := step_unattended h (State.issue_nibbles_hi hw hp hb)
    obtain ⟨hlow, hnext⟩ :=
      step_unattended hmid (State.issue_nibbles_lo hw rfl (List.getElem?_eq_some_iff.mp hb).1)
    refine ⟨_, (s.decoded (highNibble b)).out.length, (runSteps_succ hhigh 1).trans (runSteps_succ hlow 0), hnext, ?_⟩
    simp only [State.walked_walked, State.walked_seq, State.walked_cfg, State.walked_out, decode,
      codewordsOf_decodeCodeword, ← hp]
    rfl

/-- A byte visited first from the cursor on is the byte there; the others are those from a stride further on (R136). -/
theorem visited_drop_eq_cons {stride : Stride} {l rest : List Byte} {c : Nat} {b : Byte}
    (h : visited stride (l.drop c) = b :: rest) : l[c]? = some b ∧ visited stride (l.drop (c + stride.bytes)) = rest := by
  cases hb : l[c]? with
  | none =>
    rw [List.drop_eq_nil_of_le (List.getElem?_eq_none_iff.mp hb)] at h
    cases stride <;> cases h
  | some a =>
    rw [visited_drop _ _ _ _ hb] at h
    cases h
    exact ⟨rfl, rfl⟩

/-- Nothing is visited only from the end on (R140). -/
theorem length_le_of_visited_drop_nil {stride : Stride} {l : List Byte} {c : Nat} (h : visited stride (l.drop c) = []) :
    l.length ≤ c := by
  by_contra hlt
  rw [visited_drop _ _ _ _ (List.getElem?_eq_getElem (Nat.lt_of_not_le hlt))] at h
  cases h

/-- An unattended sequencer decodes every byte visited from its cursor on, and stops past the end (R136, R140). -/
theorem runSteps_visited {unit : StreamUnit} (rest : List Byte) {s : State} (h : s.Unattended)
    (hw : s.seq.walking = some unit) (hp : s.seq.phase = .hi)
    (hrest : visited s.cfg.byteStride (s.seq.input.drop s.seq.cursor) = rest) :
    ∃ t : State, ∃ cursor handed : Nat, runSteps (unit.stepsPerByte * rest.length) s = .next t ∧ t.Unattended ∧
      s.seq.input.length ≤ cursor ∧
      t = s.walked (rest.flatMap fun b => [highNibble b, lowNibble b]) { s.seq with cursor := cursor } handed := by
  induction rest generalizing s with
  | nil =>
    have hself : s = s.walked [] s.seq s.handed := by simp [State.walked, State.setSeq, State.withPort, ← h.slots]
    exact ⟨s, s.seq.cursor, s.handed, rfl, h, length_le_of_visited_drop_nil hrest, hself⟩
  | cons b rest ih =>
    obtain ⟨hb, hnext⟩ := visited_drop_eq_cons hrest
    obtain ⟨u, taken, hbyte, hu, rfl⟩ := runSteps_byte h hw hp hb
    obtain ⟨t, cursor, handed, hrun, ht, hend, rfl⟩ := ih hu hw hp (by simpa using hnext)
    refine ⟨_, cursor, handed, ?_, ht, hend, s.walked_walked ..⟩
    rw [List.length_cons, Nat.mul_add_one, Nat.add_comm, runSteps_add, hbyte, andThen_next, hrun]

/-- `decode(bytes)` is the fold over the codewords of the visited bytes (R135). -/
theorem decodeStream_eq_codewords (cfg : Config) (bytes : List Byte) :
    decodeStream cfg bytes = decodeCodewordsFrom cfg .fresh
      ((visited cfg.byteStride bytes).flatMap fun b => [highNibble b, lowNibble b]) :=
  decodeBytesFrom_eq_codewords ..

/-- Once the cursor is past the end, an unattended step only hands the last samples over: the run is over (R140). -/
theorem step_runOver {s : State} (h : s.Unattended) (hend : s.seq.input.length ≤ s.seq.cursor) :
    step s = .next (s.withPort s.out.length []) ∧ (s.withPort s.out.length []).runOver := by
  refine ⟨?_, hend, rfl⟩
  have hnone : (s.withPort s.out.length []).issue = none := State.issue_none (.inr hend)
  rw [step_script_ended h.slots h.handed h.depth, sequencerTurn, hnone]

/-- Settles O43: the walk from cursor 0 over every visited byte, from the initial registers, and the step after it. -/
theorem sequencerRunsItsStreamToTheEnd : Obligations.SequencerRunsItsStreamToTheEnd := by
  intro s unit hl hs hw hc hp hregs hh hd
  obtain ⟨t, cursor, handed, hrun, ht, hend, rfl⟩ := runSteps_visited (visited s.cfg.byteStride s.seq.input)
    ⟨hl, hs, hh, hd⟩ hw hp (by rw [hc, List.drop_zero])
  obtain ⟨hstep, hover⟩ := step_runOver ht hend
  obtain ⟨hout, hleft⟩ := s.decodedAll_emitted
    ((visited s.cfg.byteStride s.seq.input).flatMap fun b => [highNibble b, lowNibble b])
  rw [hregs] at hout hleft
  rw [decodeStream_eq_codewords]
  exact ⟨_, _, hrun, hout, hleft, hend, hstep, hover, rfl⟩

/-! ## The commands -/

/-- Settles O19: `NOP`'s own meaning. -/
theorem nopChangesNothing : Obligations.NopChangesNothing :=
  exec_nop

/-- Settles O20: `INIT` starts a stream, whose initial registers are 0. -/
theorem initStartsAFreshStream : Obligations.InitStartsAFreshStream :=
  exec_init

/-- Settles O21: two codewords one after another, each changing the registers and OUT alone. -/
theorem decbIsHighNibbleThenLowNibble : Obligations.DecbIsHighNibbleThenLowNibble := by
  intro s b h
  rw [← highNibble_eq, ← lowNibble_eq]
  refine ⟨s.decoded (highNibble b), (s.decoded (highNibble b)).decoded (lowNibble b), exec_dec_launched _ h,
    exec_dec_launched _ h, decodeByte_launched b h, decodeByte_launched b h, ?_⟩
  rw [State.decoded_eq_with, State.decoded_out, List.append_assoc]
  rfl

/-- A last operation that only answers its state changes nothing. -/
theorem andThen_next_right (o : Outcome State Fault Refusal) : andThen o .next = o := by
  cases o <;> rfl

/-- One instruction as a sequence. -/
theorem execAll_singleton (i : Instr) : execAll [i] = exec i :=
  funext fun _ => andThen_next_right _

/-- Settles O22: `DECB` is by R132 the two decode steps, of the nibbles that were joined. -/
theorem decbEqualsTwoDecs : Obligations.DecbEqualsTwoDecs := by
  intro s h l
  calc exec (.decb (h ++ l)) s
      = andThen (decodeStep (highNibble (h ++ l)) s) (decodeStep (lowNibble (h ++ l))) := rfl
    _ = andThen (exec (.dec h) s) (exec (.dec l)) := by rw [highNibble_append, lowNibble_append]; rfl
    _ = execAll [.dec h, .dec l] s := by rw [execAll, execAll_singleton]

/-- Settles O28: the byte issued, run in an idle slot. -/
theorem byteSequencerRunsTheByteAtTheCursor : Obligations.ByteSequencerRunsTheByteAtTheCursor :=
  fun _ _ _ _ hs hr hi hroom hw hb => step_idle_of_issue hs hr hi hroom (State.issue_bytes hw hb)

/-- Settles O30: the request accepted loads the stream and runs `INIT`. -/
theorem streamStartLoadsAndInitialises : Obligations.StreamStartLoadsAndInitialises := by
  intro s p rest unit bytes hs hr hreq hroom
  rw [step_of_request hs hr hroom, hreq, accept, exec_init]
  rfl

/-! ## Whole streams -/

/-- Settles O44: the program starts a stream and decodes the codewords of the visited bytes. -/
theorem decsProgramDecodesTheStream : Obligations.DecsProgramDecodesTheStream := by
  intro s bytes
  obtain ⟨hout, hresult⟩ := s.startStream_decodedAll bytes
  exact ⟨_, execAll_decsProgram s.cfg.byteStride bytes s, hout, congrArg StreamResult.samples hresult,
    congrArg StreamResult.regs hresult⟩

/-- Two samples per visited byte, at any stride (R138). -/
theorem decodeStream_length (cfg : Config) (bytes : List Byte) :
    (decodeStream cfg bytes).samples.length = 2 * (visited cfg.byteStride bytes).length := by
  rw [decodeStream, decodeBytesFrom_length]
  exact Nat.zero_add _

/-- Settles O46: stride 1 visits every byte, stride 2 every second. -/
theorem decodeEmitsTwoSamplesPerVisitedByte : Obligations.DecodeEmitsTwoSamplesPerVisitedByte := by
  intro cfg bytes
  rw [decodeStream_length]
  refine ⟨fun h => ?_, fun h => ?_⟩
  · rw [h, visited]
  · rw [h, visited, everySecond_length]

/-- Settles O47: at stride 1 `decode` is the fold itself, which splits where the list does. -/
theorem decodeOfAConcatenationContinues : Obligations.DecodeOfAConcatenationContinues := by
  intro cfg h
  have hfold (bytes : List Byte) : decodeStream cfg bytes = decodeBytesFrom cfg .fresh bytes := by
    rw [decodeStream, h, visited]
  refine ⟨fun a b => ?_, hfold []⟩
  have hcont : decodeStream cfg (a ++ b) = decodeBytesFrom cfg (decodeStream cfg a) b := by
    rw [hfold, decodeBytesFrom_append, ← hfold]
  refine ⟨hcont, ?_⟩
  rw [hcont, decodeBytesFrom_samples]

/-- Lists that agree at every even index have the same every-second elements (R136). -/
theorem everySecond_congr {α : Type} {a b : List α} (h : ∀ k : Nat, a[2 * k]? = b[2 * k]?) :
    everySecond a = everySecond b :=
  List.ext_getElem? fun k => by rw [everySecond_getElem?, everySecond_getElem?, h]

/-- Settles O48: stride 2 visits the same bytes in both. -/
theorem skippingStrideIgnoresOddBytes : Obligations.SkippingStrideIgnoresOddBytes := by
  intro cfg a b hstride _ heven
  rw [decodeStream, decodeStream, hstride, visited, visited, everySecond_congr heven]

/-! ## Streams forget what came before -/

/-- Two launched blocks with the same tables whose current streams have come to the same. -/
structure State.SameStream (s₁ s₂ : State) : Prop where
  cfg : s₁.cfg = s₂.cfg
  result : s₁.result = s₂.result
  launched₁ : s₁.launched
  launched₂ : s₂.launched
  start₁ : s₁.streamStart ≤ s₁.out.length
  start₂ : s₂.streamStart ≤ s₂.out.length

/-- After `INIT` the tables are all that two blocks need to share (R34, R142). -/
theorem State.SameStream.of_startStream {s₁ s₂ : State} (h : s₁.cfg = s₂.cfg) :
    s₁.startStream.SameStream s₂.startStream :=
  ⟨h, s₁.startStream_result.trans s₂.startStream_result.symm, rfl, rfl, le_rfl, le_rfl⟩

/-- Decoding the same codewords keeps the streams the same (R135). -/
theorem State.SameStream.decodedAll {s₁ s₂ : State} (h : s₁.SameStream s₂) (codes : List Codeword) :
    (s₁.decodedAll codes).SameStream (s₂.decodedAll codes) := by
  obtain ⟨hcfg₁, hinit₁, hmark₁, -⟩ := s₁.decodedAll_frame codes
  obtain ⟨hcfg₂, hinit₂, hmark₂, -⟩ := s₂.decodedAll_frame codes
  exact {
    cfg := by rw [hcfg₁, hcfg₂, h.cfg]
    result := by rw [State.decodedAll_result _ _ h.start₁, State.decodedAll_result _ _ h.start₂, h.cfg, h.result]
    launched₁ := hinit₁.trans h.launched₁
    launched₂ := hinit₂.trans h.launched₂
    start₁ := hmark₁ ▸ h.start₁.trans (s₁.out_length_le_decodedAll codes)
    start₂ := hmark₂ ▸ h.start₂.trans (s₂.out_length_le_decodedAll codes) }

/-- Every instruction completes in both and keeps the streams the same. -/
theorem State.SameStream.exec {s₁ s₂ : State} (h : s₁.SameStream s₂) (i : Instr) :
    ∃ t₁ t₂ : State, Machine.exec i s₁ = .next t₁ ∧ Machine.exec i s₂ = .next t₂ ∧ t₁.SameStream t₂ := by
  by_cases hi : i = .init
  · subst hi
    exact ⟨_, _, exec_init s₁, exec_init s₂, .of_startStream h.cfg⟩
  · exact ⟨_, _, exec_launched hi h.launched₁, exec_launched hi h.launched₂, h.decodedAll _⟩

/-- So does every program. -/
theorem State.SameStream.execAll {s₁ s₂ : State} (h : s₁.SameStream s₂) (program : List Instr) :
    ∃ t₁ t₂ : State, Machine.execAll program s₁ = .next t₁ ∧ Machine.execAll program s₂ = .next t₂ ∧
      t₁.SameStream t₂ := by
  induction program generalizing s₁ s₂ with
  | nil => exact ⟨s₁, s₂, rfl, rfl, h⟩
  | cons i program ih =>
    obtain ⟨u₁, u₂, hu₁, hu₂, hu⟩ := h.exec i
    obtain ⟨t₁, t₂, ht₁, ht₂, ht⟩ := ih hu
    refine ⟨t₁, t₂, ?_, ?_, ht⟩
    · rw [Machine.execAll, hu₁, andThen_next, ht₁]
    · rw [Machine.execAll, hu₂, andThen_next, ht₂]

/-- Settles O49: `INIT` makes the two streams the same, and the rest of the program keeps them so. -/
theorem streamsForgetEverythingBeforeInit : Obligations.StreamsForgetEverythingBeforeInit := by
  intro s₁ s₂ program hcfg
  obtain ⟨t₁, t₂, ht₁, ht₂, ht⟩ := (State.SameStream.of_startStream hcfg).execAll program
  exact ⟨t₁, t₂, ht₁, ht₂, congrArg StreamResult.samples ht.result, congrArg StreamResult.regs ht.result⟩

end Sys2Proof.Machine

/-! The host context family (45_host_context.md): its obligations, from the windows a header resolves to, the texts that match the
range pattern, and the bytes of a window. -/

namespace Sys2Proof.Machine

/-! ## Windows -/

/-- U9: an empty file has no window. -/
theorem resolveRange_empty (header : RangeHeader) : resolveRange header 0 = .error .emptyFile :=
  if_pos rfl

/-- C5: without a matching header the window is the whole file. -/
theorem resolveRange_whole {header : RangeHeader} {fileSize : FileOffset} (h : fileSize ≠ 0)
    (hh : header = .absent ∨ header = .unmatched) :
    resolveRange header fileSize = .ok ⟨0, lastOffset fileSize, fileSize⟩ := by
  rcases hh with rfl | rfl <;> exact if_neg h

/-- Clamping the last offset changes nothing. -/
theorem clampOffset_self (last : FileOffset) : clampOffset last.toNat last = last := by
  simp [clampOffset]

/-- R158: an end that is not given is the last offset, so each matching header has both ends clamped; their order decides. -/
theorem resolveRange_range {fileSize : FileOffset} (h : fileSize ≠ 0) (start : Nat) (stop : Option Nat) :
    resolveRange (.range start stop) fileSize =
      if min start (fileSize.toNat - 1) ≤ min (stop.getD (fileSize.toNat - 1)) (fileSize.toNat - 1) then
        .ok ⟨clampOffset start (lastOffset fileSize), clampOffset (stop.getD (fileSize.toNat - 1)) (lastOffset fileSize),
          fileSize⟩
      else .error .invertedRange := by
  have hstop : (stop.map fun n => clampOffset n (lastOffset fileSize)).getD (lastOffset fileSize) =
      clampOffset (stop.getD (fileSize.toNat - 1)) (lastOffset fileSize) := by
    cases stop with
    | none => rw [← lastOffset_toNat h]; exact (clampOffset_self _).symm
    | some n => rfl
  simp only [resolveRange, if_neg h, hstop, BitVec.le_def, clampOffset_toNat, lastOffset_toNat h]

/-- Settles O52: a window that resolves lies in the file; the whole file and the clamped ends are `resolveRange`'s own cases. -/
theorem rangesResolveByLenientClamp : Obligations.RangesResolveByLenientClamp := by
  refine ⟨resolveRange_empty, fun fileSize h => ⟨?_, ?_, ?_, ?_, ?_⟩⟩
  · intro header w hw
    obtain ⟨-, hle, hstop, htotal, -⟩ := resolveRange_ok_cases hw
    exact ⟨hle, by rwa [htotal], htotal⟩
  · exact fun header hh => ⟨_, resolveRange_whole h hh, rfl, lastOffset_toNat h, rfl⟩
  · exact fun start stop hle =>
      ⟨_, (resolveRange_range h _ _).trans (if_pos hle), by simp [lastOffset_toNat h], by simp [lastOffset_toNat h], rfl⟩
  · exact fun start stop hlt => (resolveRange_range h _ _).trans (if_neg (Nat.not_le.mpr hlt))
  · exact fun start =>
      ⟨_, (resolveRange_range h _ none).trans (if_pos (by simp)), by simp [lastOffset_toNat h],
        by simp [lastOffset_toNat h], rfl⟩

/-! ## Header texts -/

/-- The decimal digits are the characters from `0` to `9`. -/
theorem isDigit_iff {c : Char} : c.isDigit = true ↔ '0' ≤ c ∧ c ≤ '9' := by
  simp [Char.isDigit, Char.le_def]

/-- A text of digits, as the model's scanner tests it. -/
theorem isDigits_iff {text : List Char} : IsDigits text ↔ text ≠ [] ∧ ∀ c ∈ text, c.isDigit = true := by
  simp only [IsDigits, isDigit_iff]

/-- R158: digits, a hyphen, and digits or nothing are read as their numbers. -/
theorem parseRange_of_digits {a b : List Char} (ha : IsDigits a) (hb : ∀ c ∈ b, c.isDigit = true) :
    parseRange ("bytes=".toList ++ a ++ '-' :: b) =
      .range (decimal a) (if b = [] then none else some (decimal b)) := by
  obtain ⟨hne, ha⟩ := isDigits_iff.mp ha
  have hfirst : (a ++ '-' :: b).takeWhile Char.isDigit = a := by
    rw [List.takeWhile_append_of_pos ha]
    simp
  have hrest : (a ++ '-' :: b).dropWhile Char.isDigit = '-' :: b := by
    rw [List.dropWhile_append_of_pos ha]
    simp
  cases b with
  | nil => simp [parseRange, hfirst, hrest, hne]
  | cons c b => simp [parseRange, hfirst, hrest, hne, List.all_eq_true.mpr hb]

/-- R158: every text is read as no match, or it is digits, a hyphen, and digits or nothing. -/
theorem parseRange_cases (text : List Char) :
    parseRange text = .unmatched ∨
      ∃ a b : List Char, text = "bytes=".toList ++ a ++ '-' :: b ∧ IsDigits a ∧ ∀ c ∈ b, c.isDigit = true := by
  unfold parseRange
  split
  · next rest =>
    dsimp only
    split
    · next last hdrop =>
      split
      · exact .inl rfl
      · next hdigits =>
        obtain ⟨hne, hlast⟩ : rest.takeWhile Char.isDigit ≠ [] ∧ ∀ c ∈ last, c.isDigit = true := by
          simpa using hdigits
        refine .inr ⟨rest.takeWhile Char.isDigit, last, ?_,
          isDigits_iff.mpr ⟨hne, fun _ => List.mem_takeWhile_imp⟩, hlast⟩
        simp [← hdrop]
    · exact .inl rfl
  · exact .inl rfl

/-- Settles O54: a text of the pattern is read as its numbers, and a text that matches is of the pattern. -/
theorem rangeHeadersAreRead : Obligations.RangeHeadersAreRead := by
  refine ⟨rfl, fun a ha => ⟨parseRange_of_digits ha (by simp), fun b hb => ?_⟩, fun text hother => ?_⟩
  · obtain ⟨hne, hdigits⟩ := isDigits_iff.mp hb
    rw [List.append_assoc]
    exact (parseRange_of_digits ha hdigits).trans (by rw [if_neg hne]; rfl)
  · rcases parseRange_cases text with hun | ⟨a, b, rfl, ha, hb⟩
    · exact hun
    · obtain ⟨hopen, hclosed⟩ := hother a ha
      by_cases hempty : b = []
      · exact absurd (by rw [hempty]) hopen
      · exact absurd (by simp) (hclosed b (isDigits_iff.mpr ⟨hempty, hb⟩))

/-! ## Responses -/

/-- A decimal text is the digits of its number, without a leading zero (R160). -/
theorem decimalText_spec (n : Nat) :
    IsDigits (decimalText n) ∧ digitsValue (decimalText n) = n ∧
      ((decimalText n).head? = some '0' → decimalText n = ['0']) :=
  ⟨isDigits_iff.mpr ⟨decimalText_ne_nil n, fun _ => decimalText_isDigit⟩, decimal_decimalText n, decimalText_head n⟩

/-- A window inside the file has as many bytes as its header says (R159). -/
theorem ByteRangeWindow.payload_length {w : ByteRangeWindow} {file : List Byte} (hle : w.start.toNat ≤ w.stop.toNat)
    (hstop : w.stop.toNat < file.length) : (w.payload file).length = w.stop.toNat - w.start.toNat + 1 := by
  rw [payload, contentLength, List.length_take, List.length_drop]
  omega

/-- Byte `k` of a window's payload is the file's byte `k` after `start` (R159). -/
theorem ByteRangeWindow.payload_getElem? {w : ByteRangeWindow} {k : Nat} (file : List Byte)
    (hk : w.start.toNat + k ≤ w.stop.toNat) : (w.payload file)[k]? = file[w.start.toNat + k]? := by
  rw [payload, contentLength, List.getElem?_take_of_lt (by omega), List.getElem?_drop]

/-- The window from the first byte to the last holds the file (C5). -/
theorem ByteRangeWindow.payload_whole {w : ByteRangeWindow} {file : List Byte} (hstart : w.start = 0)
    (hstop : w.stop.toNat = file.length - 1) : w.payload file = file := by
  rw [payload, contentLength, hstart, hstop]
  exact List.take_of_length_le (by simp; omega)

/-- The response to a request whose window resolves (R157 to R160). -/
theorem respondRange_of_resolves {text : Option (List Char)} {file : List Byte} {w : ByteRangeWindow}
    (hfits : file.length < 2 ^ 64)
    (hw : resolveRange (readRangeHeader text) (BitVec.ofNat 64 file.length) = .ok w) :
    respondRange text file =
      .ok { status := rangeStatus (readRangeHeader text), headers := w.headers, body := w.payload file } := by
  rw [respondRange, if_pos hfits, hw, Except.map]

/-- Settles O55: the texts are the decimal texts of the window's numbers, and the body is its payload. -/
theorem rangeResponsesHaveTheirHeadersAndBytes : Obligations.RangeResponsesHaveTheirHeadersAndBytes := by
  intro text file
  refine ⟨fun hfits w hw => ?_, fun hlarge => if_neg (Nat.not_lt.mpr hlarge)⟩
  have hsize : (BitVec.ofNat 64 file.length).toNat = file.length := Nat.mod_eq_of_lt hfits
  obtain ⟨hnonempty, hle, hlast, htotal, hwhole⟩ := resolveRange_ok_cases hw
  have htotalNat : w.total.toNat = file.length := by rw [htotal, hsize]
  have hpos : 0 < file.length := by
    rw [← hsize]
    exact Nat.pos_of_ne_zero fun h0 => hnonempty (BitVec.eq_of_toNat_eq h0)
  have hstop : w.stop.toNat < file.length := by rw [hsize] at hlast; omega
  refine ⟨decimalText w.start.toNat, decimalText w.stop.toNat, decimalText file.length, decimalText w.contentLength,
    w.payload file, ?_, ?_, w.payload_length hle hstop, fun k => w.payload_getElem? file, fun hh => ?_⟩
  · rw [respondRange_of_resolves hfits hw, ← htotalNat]
    rfl
  · simp only [List.forall_mem_cons]
    exact ⟨decimalText_spec _, decimalText_spec _, decimalText_spec _, decimalText_spec _, by simp⟩
  · obtain ⟨hstart, hend⟩ := hwhole hh
    exact w.payload_whole hstart (by rw [hend, lastOffset_toNat hnonempty, hsize])

end Sys2Proof.Machine

/-! The exceptions family (60_exceptions.md): its obligations. A launched block completes whatever it runs, before launch every
decode is refused, `rst` wins over a request, and an idle block keeps its state. -/

namespace Sys2Proof.Machine

/-! ## A launched block completes -/

/-- Settles O24: `INIT` starts a stream, and every other instruction decodes its codewords, which leaves the launch bit. -/
theorem everyInstructionCompletesOnceLaunched : Obligations.EveryInstructionCompletesOnceLaunched := by
  intro i s h
  by_cases hi : i = .init
  · subst hi
    exact ⟨s.startStream, exec_init s, rfl⟩
  · obtain ⟨-, hinit, -⟩ := s.decodedAll_frame (codewordsOf i)
    exact ⟨s.decodedAll (codewordsOf i), exec_launched hi h, hinit.trans h⟩

/-- With nothing to issue, a turn of the sequencer keeps the state (R140, R191). -/
theorem sequencerTurn_of_issue_none {s : State} (h : s.issue = none) : sequencerTurn s = .next s := by
  rw [sequencerTurn, h]

/-- Whatever request a launched block accepts, it completes, and the block stays launched (R180). -/
theorem accept_completes (r : Request) {s : State} (h : s.launched) : ∃ t : State, accept r s = .next t ∧ t.launched := by
  cases r with
  | command w => exact everyInstructionCompletesOnceLaunched (decode (.cmd w)) s h
  | stream unit bytes => exact everyInstructionCompletesOnceLaunched .init (s.loadStream unit bytes) h
  | idle =>
    cases hq : s.issue with
    | none => exact ⟨s, sequencerTurn_of_issue_none hq, h⟩
    | some issued =>
      obtain ⟨e, q⟩ := issued
      rw [accept, sequencerTurn_of_issue hq]
      exact everyInstructionCompletesOnceLaunched (decode e) (s.setSeq q) h

/-- Settles O35: a slot resets the block, lets the host take its samples, or has a request accepted after that. -/
theorem launchedBlockNeverStops : Obligations.LaunchedBlockNeverStops := by
  intro s h
  cases hr : s.headSlot.rst with
  | true => exact ⟨s.popSlot.hardwareReset, step_rst hr, rfl⟩
  | false =>
    cases hc : (s.popSlot.handOver s.headSlot.take).cmdReady with
    | true =>
      rw [step_accept hr hc]
      exact accept_completes s.headSlot.request (s := s.popSlot.handOver s.headSlot.take) h
    | false => exact ⟨s.popSlot.handOver s.headSlot.take, step_unready hr hc, h⟩

/-! ## Before launch, under reset, and with nothing to do -/

/-- Settles O23: `DEC`, the codeword rows and both byte forms are decode steps, which need a launched block (R203). -/
theorem decodesAreRefusedBeforeLaunch : Obligations.DecodesAreRefusedBeforeLaunch := by
  intro s h
  refine ⟨fun code => ⟨decodeStep_unlaunched code h, ?_⟩,
    fun b => ⟨decodeByte_unlaunched b h, decodeByte_unlaunched b h⟩,
    exec_nop s, s.startStream, exec_init s, rfl⟩
  exact (exec_decodeCodeword code s).trans (decodeStep_unlaunched code h)

/-- Settles O2: the hardware reset of the state with the slot consumed, its initial registers written out. -/
theorem resetWinsOverACoincidingRequest : Obligations.ResetWinsOverACoincidingRequest := by
  intro s p rest hs hr
  rw [step_rst (by rw [State.headSlot_cons hs, hr]), State.popSlot, hs]
  rfl

/-- Settles O32: a ready block gives its turn to a sequencer that issues nothing; one that is not ready accepts nothing. -/
theorem idleBlockKeepsItsState : Obligations.IdleBlockKeepsItsState := by
  intro s p rest hs hr hi hend
  have hp : s.headSlot = p := State.headSlot_cons hs
  have hnone : (s.popSlot.handOver p.take).issue = none := State.issue_none hend
  have hstep : step s = .next (s.popSlot.handOver p.take) := by
    rw [← hp] at hr hi hnone ⊢
    cases hc : (s.popSlot.handOver s.headSlot.take).cmdReady with
    | true => rw [step_accept hr hc, hi, accept, sequencerTurn_of_issue_none hnone]
    | false => exact step_unready hr hc
  rw [hstep, State.handOver, State.popSlot, hs]
  rfl

end Sys2Proof.Machine

/-! The reset and hazards family (70_reset_and_hazards.md): its obligations. A block without room accepts nothing, the host past its
script takes every sample, and the samples leave in order. -/

namespace Sys2Proof.Machine

/-! ## Readiness and the script's end -/

/-- R212, log 4: while two more samples would not fit after the host took its own, the block is not ready. -/
theorem State.cmdReady_handOver_eq_false {s : State} {n : Nat}
    (h : s.cfg.bufferDepth < s.out.length - (s.handed + min n (s.out.length - s.handed)) + 2) :
    (s.popSlot.handOver n).cmdReady = false :=
  decide_eq_false (Nat.not_le.mpr h)

/-- Settles O31: such a block is not ready after the host's taking, so that taking is all the step does. -/
theorem fullBufferAcceptsNothing : Obligations.FullBufferAcceptsNothing := by
  intro s p rest hs hr hfull
  have hp : s.headSlot = p := State.headSlot_cons hs
  have hready : (s.popSlot.handOver s.headSlot.take).cmdReady = false := by
    rw [hp]
    exact State.cmdReady_handOver_eq_false hfull
  rw [step_unready (by rw [hp, hr]) hready, hp, State.handOver, State.popSlot, hs]
  rfl

/-- Settles O33: the slot written out is the state's own idle slot, and consuming it leaves the empty script. -/
theorem endOfScriptTakesEverySample : Obligations.EndOfScriptTakesEverySample := by
  intro s hs
  have hhead : s.headSlot = s.idleSlot := by rw [State.headSlot, hs, List.headD_nil]
  have hpop : s.popSlot = { s with slots := [] } := by rw [State.popSlot, hs, List.tail_nil]
  rw [step, hhead, hpop]
  rfl

/-! ## The samples held -/

/-- R212: taking `n` samples drops the first `n` held ones; taking more than are held drops them all. -/
theorem State.handOver_pending (s : State) (n : Nat) : (s.handOver n).pending = s.pending.drop n := by
  have hdrop : s.out.drop (s.handed + min n (s.out.length - s.handed)) = s.out.drop (s.handed + n) :=
    List.drop_eq_drop_iff.mpr (by omega)
  rw [State.pending, State.pending, State.handOver_out, State.handOver_handed, hdrop, List.drop_drop]

/-- R84: the sample port shows the oldest held sample. -/
theorem State.samplePort_eq_head? (s : State) : s.samplePort = s.pending.head? :=
  List.head?_drop.symm

/-- R84: `out_valid` says whether a sample is held. -/
theorem State.outValid_iff (s : State) : s.outValid = true ↔ s.pending ≠ [] := by
  rw [State.outValid, State.pending, decide_eq_true_iff, ne_eq, List.drop_eq_nil_iff, Nat.not_le]

/-- Settles O39: the three facts about the held samples hold in every state, with the invariant or without. -/
theorem samplesLeaveInOrder : Obligations.SamplesLeaveInOrder :=
  fun s n _ => ⟨s.handOver_pending n, s.samplePort_eq_head?, s.outValid_iff⟩

end Sys2Proof.Machine

/-! The placing of a table word (30_encoding.md, logs 14 and 15): its obligation. The unit placed is what the next step's request or the
sequencer issues, and the placing moves only the sequencer and the host's script. -/

namespace Sys2Proof.Machine

/-! ## The placed word and its decoding -/

/-- The decoder of table words decodes the unit that a table word is (log 14). -/
theorem decodeTableWord_eq_map (nbits w : Nat) : decodeTableWord nbits w = (tableWord nbits w).map decode := by
  unfold decodeTableWord decodeRaw tableWord
  cases (tableRaw nbits w).encoded <;> rfl

/-- A table word that is a unit is placed as that unit. -/
theorem State.withFetchWord_of_tableWord {nbits w : Nat} {e : Encoded} (s : State) (h : tableWord nbits w = some e) :
    s.withFetchWord nbits w = s.placeNext e := by
  rw [State.withFetchWord, h]

/-! ## The slot put before the script -/

/-- The host of the slot put before the script takes every sample, so the block accepts its request (logs 4, 15). -/
theorem step_pushSlot {s : State} (r : Request) (hd : 2 ≤ s.cfg.bufferDepth) :
    step (s.pushSlot r) = accept r (s.handOver (s.out.length - s.handed)) := by
  refine step_of_request (s := s.pushSlot r) rfl rfl ?_
  simp only [State.pushSlot_out, State.pushSlot_handed, State.pushSlot_cfg]
  omega

/-- When that slot asks for nothing, the unit the sequencer issues is run (log 7). -/
theorem step_pushSlot_idle_of_issue {s : State} {e : Encoded} {q : Sequencer} (hd : 2 ≤ s.cfg.bufferDepth)
    (hq : s.issue = some (e, q)) :
    step (s.pushSlot .idle) = exec (decode e) ((s.handOver (s.out.length - s.handed)).setSeq q) :=
  (step_pushSlot .idle hd).trans (sequencerTurn_of_issue hq)

/-! ## The unit put at the cursor -/

/-- The patched byte stands at the cursor, inside IN whether or not IN ended before it. -/
theorem State.patchIn_input_cursor (s : State) (unit : StreamUnit) (f : Byte → Byte) :
    ∃ b : Byte, (s.patchIn unit f).seq.input[s.seq.cursor]? = some (f b) := by
  have hlen : s.seq.cursor < (s.seq.input ++ List.replicate (s.seq.cursor + 1 - s.seq.input.length) 0).length := by
    rw [List.length_append, List.length_replicate]
    omega
  exact ⟨_, (List.getElem?_modify_eq ..).trans (congrArg (f <$> ·) (List.getElem?_eq_getElem hlen))⟩

/-- A byte patched in at the cursor is what a byte-wise sequencer issues (R24, R136). -/
theorem State.patchIn_bytes_issue (s : State) (b : Byte) :
    ∃ q : Sequencer, (s.patchIn .bytes fun _ => b).issue = some (.packed b, q) := by
  obtain ⟨-, hb⟩ := s.patchIn_input_cursor .bytes fun _ => b
  exact ⟨_, State.issue_bytes rfl hb⟩

/-- A codeword placed is what the nibble-wise sequencer issues, in either phase (R24, R41). -/
theorem State.placeCodeword_issue (s : State) (c : Codeword) :
    ∃ q : Sequencer, (s.placeCodeword c).issue = some (.cw c, q) := by
  cases hp : s.seq.phase with
  | hi =>
    obtain ⟨b, hb⟩ := s.patchIn_input_cursor .nibbles fun b => c ++ lowNibble b
    have hissue := State.issue_nibbles_hi (s := s.patchIn .nibbles fun b => c ++ lowNibble b) rfl hp hb
    rw [highNibble_append] at hissue
    rw [State.placeCodeword, hp]
    exact ⟨_, hissue⟩
  | lo held =>
    obtain ⟨-, hb⟩ := s.patchIn_input_cursor .nibbles fun _ => highNibble held ++ c
    have hlt := (List.getElem?_eq_some_iff.mp hb).1
    rw [State.placeCodeword, hp]
    exact ⟨_, (State.issue_nibbles_lo rfl rfl hlt).trans (by rw [lowNibble_append])⟩

/-- Placing a codeword moves the sequencer alone. -/
theorem State.placeCodeword_eq_setSeq (s : State) (c : Codeword) :
    s.placeCodeword c = s.setSeq (s.placeCodeword c).seq := by
  unfold State.placeCodeword
  cases s.seq.phase <;> rfl

/-! ## The step that takes the placed unit -/

/-- The step from a state with a unit placed runs that unit, once the host has taken every sample and with the sequencer moved. -/
theorem step_placeNext {s : State} (e : Encoded) (hd : 2 ≤ s.cfg.bufferDepth) :
    ∃ q : Sequencer, step (s.placeNext e) = exec (decode e) ((s.handOver (s.out.length - s.handed)).setSeq q) := by
  cases e with
  | cmd w => exact ⟨s.seq, step_pushSlot (.command w) hd⟩
  | packed b =>
    obtain ⟨q, hq⟩ := s.patchIn_bytes_issue b
    exact ⟨q, step_pushSlot_idle_of_issue (s := s.patchIn .bytes fun _ => b) hd hq⟩
  | cw c =>
    obtain ⟨q, hq⟩ := s.placeCodeword_issue c
    rw [State.placeNext, s.placeCodeword_eq_setSeq c]
    rw [s.placeCodeword_eq_setSeq c] at hq
    exact ⟨q, step_pushSlot_idle_of_issue (s := s.setSeq (s.placeCodeword c).seq) hd hq⟩

/-- Settles O34: the unit is placed and run on the state with only the samples taken and the sequencer changed. -/
theorem placedWordIsWhatTheStepExecutes : Obligations.PlacedWordIsWhatTheStepExecutes := by
  intro s nbits w e he hd
  obtain ⟨q, hstep⟩ := step_placeNext e hd
  rw [decodeTableWord_eq_map, s.withFetchWord_of_tableWord he, he]
  exact ⟨rfl, _, hstep, rfl, rfl, rfl, rfl, rfl, rfl⟩

end Sys2Proof.Machine
